-- ==== Sys2Proof/Word.lean ====
section
/-!
DEFINITION. The word and byte types of the OTP-HMAC core and byte sequences (00_scope.md R11, R12).
-/

namespace Sys2Proof

/-- A 32-bit register word, unsigned, bit 0 least significant (00_scope.md R11). -/
abbrev Word := BitVec 32

/-- An unsigned 8-bit value (00_scope.md R11). -/
abbrev Byte := BitVec 8

/-- A byte sequence, byte 0 at the front (00_scope.md R12, 20_memory.md R61). -/
abbrev Bytes := List Byte

end Sys2Proof
end

