-- ==== Sys2Proof/Machine/Fields.lean ====
section
/-!
DEFINITION. The fields of a command word (30_encoding.md R82, R83): taking a word apart and putting one together.
-/

namespace Sys2Proof

/-- `OP = w[3:0]` (30_encoding.md R83). -/
def cmdOp (w : Word) : BitVec 4 := w.extractLsb' 0 4

/-- `KM = w[8]` (30_encoding.md R83). -/
def cmdKm (w : Word) : Bool := w.getLsbD 8

/-- `TM = w[9]` (30_encoding.md R83). -/
def cmdTm (w : Word) : Bool := w.getLsbD 9

/-- The DIGITS field `w[22:16]`, an unsigned count (30_encoding.md R83). -/
def cmdDigits (w : Word) : BitVec 7 := w.extractLsb' 16 7

/-- `RSV`: some reserved bit of the word is set (30_encoding.md R83). -/
def cmdReserved (w : Word) : Bool :=
  w.extractLsb' 4 4 != 0 || w.extractLsb' 10 6 != 0 || w.extractLsb' 23 9 != 0

/-- The command word with the given fields and every reserved bit 0 (30_encoding.md R82). -/
def cmdWord (op : BitVec 4) (km tm : Bool) (digits : BitVec 7) : Word :=
  0#9 ++ digits ++ 0#6 ++ BitVec.ofBool tm ++ BitVec.ofBool km ++ 0#4 ++ op

end Sys2Proof
end

