-- ==== Sys2Proof/Machine/RegMap.lean ====
section
/-!
DEFINITION. Address decode and the address map (20_memory.md R65 to R67): which register a word index names.
-/

namespace Sys2Proof

/-- The registers of the window (20_memory.md R66). `digest i` and `code i` are DIGESTi and CODEi. -/
inductive Reg where
  | id | param | cap | ctrl | status | cmd | keyLen | msgLen | codeBin
  | keyData8 | keyData32 | msgData8 | msgData32
  | digest (i : Nat)
  | code (i : Nat)
  | reserved
  deriving DecidableEq, Repr

/-- The address map (20_memory.md R66): the register at word index `idx`. -/
def regAt (idx : BitVec 6) : Reg :=
  match idx.toNat with
  | 0 => .id
  | 1 => .param
  | 2 => .cap
  | 3 => .ctrl
  | 4 => .status
  | 5 => .cmd
  | 6 => .keyLen
  | 7 => .msgLen
  | 8 => .codeBin
  | 9 => .keyData8
  | 10 => .keyData32
  | 11 => .msgData8
  | 12 => .msgData32
  | n =>
    if n < 16 then .reserved
    else if n < 32 then .digest (n - 16)
    else if n < 48 then .code (n - 32)
    else .reserved

/-- The word index `a[7:2]` of a byte address (20_memory.md R65): `a[1:0]` is ignored (R67), and so is everything above
bit 7, which is the platform's block select (log 9). -/
def wordIndex (a : Nat) : BitVec 6 := BitVec.ofNat 6 (a / 4)

end Sys2Proof
end

