-- ==== Sys2Proof/Syntax.lean ====
section
/-!
DEFINITION. The two kinds of encoded operation of the block (30_encoding.md R80), one constructor per row of
spec/opcode_table.json: the eight command words of format CMDW and the nine bus transactions of format BUS.
-/

namespace Sys2Proof

/-- One operation. A command constructor stands for a CMD write that carries its word (30_encoding.md R80, log 11)
and holds the fields of R83, those the opcode ignores too (R86), because the accepted word is kept whole in `pend`. -/
inductive Instr where
  /-- OP = 0 (42_commands.md R174). -/
  | nop (km tm : Bool) (digits : BitVec 7)
  /-- OP = 1 (42_commands.md R175). -/
  | hmac (km tm : Bool) (digits : BitVec 7)
  /-- OP = 2 (42_commands.md R176). -/
  | hotp (km tm : Bool) (digits : BitVec 7)
  /-- OP = 3 (42_commands.md R177). -/
  | trunc (km tm : Bool) (digits : BitVec 7)
  /-- OP = 4 (42_commands.md R178). -/
  | clrkey (km tm : Bool) (digits : BitVec 7)
  /-- OP = 5 (42_commands.md R179). -/
  | clrmsg (km tm : Bool) (digits : BitVec 7)
  /-- OP = 6 (42_commands.md R180). -/
  | zeroize (km tm : Bool) (digits : BitVec 7)
  /-- Every other command word (42_commands.md R181). -/
  | illegal (w : Word)
  /-- A read of the register word `idx` (43_bus.md R210). -/
  | rd (idx : BitVec 6)
  /-- 43_bus.md R215. -/
  | wrCtrl (v : Word)
  /-- 43_bus.md R217. -/
  | wrStatus (v : Word)
  /-- 43_bus.md R222. -/
  | wrCmd (v : Word)
  /-- 43_bus.md R218. -/
  | wrKeyData8 (v : Word)
  /-- 43_bus.md R219. -/
  | wrKeyData32 (v : Word)
  /-- 43_bus.md R220. -/
  | wrMsgData8 (v : Word)
  /-- 43_bus.md R221. -/
  | wrMsgData32 (v : Word)
  /-- A write to a read-only or reserved word (43_bus.md R213). -/
  | wrNoEffect (idx : BitVec 6) (v : Word)
  deriving DecidableEq, Repr

end Sys2Proof
end

