-- ==== Sys2Proof/WellFormed.lean ====
section
/-!
DEFINITION. Which terms of `Instr` are an operation the decoder can name (30_encoding.md R87, R90; 43_bus.md R213).
-/

namespace Sys2Proof

/-- A command word no command row matches: a reserved bit is set or OP is 7..15 (30_encoding.md R87). -/
abbrev IllegalWord (w : Word) : Prop := cmdReserved w = true ∨ 7 ≤ (cmdOp w).toNat

/-- A word index whose register ignores writes: read-only or reserved (43_bus.md R213). -/
def writeIgnored (idx : BitVec 6) : Bool :=
  match regAt idx with
  | .ctrl | .status | .cmd | .keyData8 | .keyData32 | .msgData8 | .msgData32 => false
  | .id | .param | .cap | .keyLen | .msgLen | .codeBin | .digest _ | .code _ | .reserved => true

/-- The two default rows of the opcode table hold only what no other row of their format matches (30_encoding.md R90);
every other term is well formed whatever its fields. -/
abbrev Instr.WellFormed (i : Instr) : Prop :=
  match i with
  | .illegal w => IllegalWord w
  | .wrNoEffect idx _ => writeIgnored idx = true
  | .nop _ _ _ | .hmac _ _ _ | .hotp _ _ _ | .trunc _ _ _ | .clrkey _ _ _ | .clrmsg _ _ _ | .zeroize _ _ _
  | .rd _ | .wrCtrl _ | .wrStatus _ | .wrCmd _ | .wrKeyData8 _ | .wrKeyData32 _ | .wrMsgData8 _ | .wrMsgData32 _ => True

end Sys2Proof
end

