-- ==== Sys2Proof/Decode.lean ====
section
/-!
DEFINITION. The decoder and the encoder of command words and bus transactions (30_encoding.md R80 to R90).
-/

namespace Sys2Proof

/-- An encoded operation (30_encoding.md R80): a 32-bit command word (R82), or an 8-bit bus selector (R81) with the data
word the transaction carries (0 for a read, which carries none). -/
inductive Encoded where
  | cmdw (w : Word)
  | bus (sel : Byte) (v : Word)
  deriving DecidableEq, Repr

/-- Why a decoder refuses its input. -/
inductive DecodeError where
  /-- A write selector with bit 6 set: `sel[6] = 0` in every selector (30_encoding.md R81). No transaction forms one
  (log 8). -/
  | writeSelectorBit6
  /-- A row width that is neither a command word's nor a selector's (30_encoding.md R81, R89; log 18). -/
  | width
  deriving DecidableEq, Repr

/-- The row of format CMDW a command word is (30_encoding.md R85, R90). Total: a word no row matches is ILLEGAL. -/
def decodeCommand (w : Word) : Instr :=
  if cmdReserved w then .illegal w
  else
    match (cmdOp w).toNat with
    | 0 => .nop (cmdKm w) (cmdTm w) (cmdDigits w)
    | 1 => .hmac (cmdKm w) (cmdTm w) (cmdDigits w)
    | 2 => .hotp (cmdKm w) (cmdTm w) (cmdDigits w)
    | 3 => .trunc (cmdKm w) (cmdTm w) (cmdDigits w)
    | 4 => .clrkey (cmdKm w) (cmdTm w) (cmdDigits w)
    | 5 => .clrmsg (cmdKm w) (cmdTm w) (cmdDigits w)
    | 6 => .zeroize (cmdKm w) (cmdTm w) (cmdDigits w)
    | _ => .illegal w

/-- The row of format BUS a write of `v` to the word `idx` is (30_encoding.md R90, 43_bus.md R211). -/
def decodeWrite (idx : BitVec 6) (v : Word) : Instr :=
  match regAt idx with
  | .ctrl => .wrCtrl v
  | .status => .wrStatus v
  | .cmd => .wrCmd v
  | .keyData8 => .wrKeyData8 v
  | .keyData32 => .wrKeyData32 v
  | .msgData8 => .wrMsgData8 v
  | .msgData32 => .wrMsgData32 v
  | .id | .param | .cap | .keyLen | .msgLen | .codeBin | .digest _ | .code _ | .reserved => .wrNoEffect idx v

/-- The transaction a selector names (30_encoding.md R81, R90): `sel[7]` is W; every read is RD (mask 0x80). -/
def decodeSelector (sel : Byte) (v : Word) : Except DecodeError Instr :=
  if sel.getLsbD 7 then
    if sel.getLsbD 6 then .error .writeSelectorBit6 else .ok (decodeWrite (sel.extractLsb' 0 6) v)
  else .ok (.rd (sel.extractLsb' 0 6))

/-- The decoder (30_encoding.md R90). -/
def decode : Encoded → Except DecodeError Instr
  | .cmdw w => .ok (decodeCommand w)
  | .bus sel v => decodeSelector sel v

/-- The selector of a transaction (30_encoding.md R81). -/
def selector (write : Bool) (idx : BitVec 6) : Byte := BitVec.ofBool write ++ 0#1 ++ idx

/-- The encoder, from the tables of 30_encoding.md R82, R85 and the selectors of 43_bus.md R210 to R222. -/
def encode : Instr → Encoded
  | .nop km tm n => .cmdw (cmdWord 0 km tm n)
  | .hmac km tm n => .cmdw (cmdWord 1 km tm n)
  | .hotp km tm n => .cmdw (cmdWord 2 km tm n)
  | .trunc km tm n => .cmdw (cmdWord 3 km tm n)
  | .clrkey km tm n => .cmdw (cmdWord 4 km tm n)
  | .clrmsg km tm n => .cmdw (cmdWord 5 km tm n)
  | .zeroize km tm n => .cmdw (cmdWord 6 km tm n)
  | .illegal w => .cmdw w
  | .rd idx => .bus (selector false idx) 0
  | .wrCtrl v => .bus 0x83 v
  | .wrStatus v => .bus 0x84 v
  | .wrCmd v => .bus 0x85 v
  | .wrKeyData8 v => .bus 0x89 v
  | .wrKeyData32 v => .bus 0x8A v
  | .wrMsgData8 v => .bus 0x8B v
  | .wrMsgData32 v => .bus 0x8C v
  | .wrNoEffect idx v => .bus (selector true idx) v

/-- The encoded operation a row of `nbits` bits with value `w` is (log 18): 32 bits are a command word; 8 bits are a
selector whose data word is 0; 40 bits are a selector and, above it, its data word. -/
def tableEncoded (nbits w : Nat) : Except DecodeError Encoded :=
  if nbits = 32 then .ok (.cmdw (BitVec.ofNat 32 w))
  else if nbits = 8 then .ok (.bus (BitVec.ofNat 8 w) 0)
  else if nbits = 40 then .ok (.bus (BitVec.ofNat 8 w) (BitVec.ofNat 32 (w / 256)))
  else .error .width

/-- The instruction the decoder reads from a row's bits, numbered as spec/opcode_table.json numbers them. -/
def decodeTableWord (nbits w : Nat) : Option Instr :=
  match tableEncoded nbits w with
  | .error _ => none
  | .ok e =>
    match decode e with
    | .error _ => none
    | .ok i => some i

end Sys2Proof
end

