-- ==== Sys2Proof/Config.lean ====
section
/-!
DEFINITION. The build parameters of the block (00_scope.md R5 to R8) and the one function the spec leaves open,
the hash engine of a build that is not the reference build (R6, 92_eei_decisions.md D2).
-/

namespace Sys2Proof

/-- Which hash engine the block is built with (00_scope.md R5): the reference engine of R8, or any other,
told apart by a number of the model's own (log 6). -/
inductive HashEngine where
  | sha1
  | other (id : Nat)
  deriving DecidableEq, Repr

/-- FREE VALUE (log 6). The output of a hash engine other than SHA-1: an uninterpreted total function of the
engine and its input (00_scope.md R6). It has no body, so nothing can be proved of its values. -/
opaque Config.hashOther : Nat → Bytes → Bytes

/-- The parameters fixed when the block is built (00_scope.md R5, R7). `B` and `L` are the spec's names for the
hash's block size and digest length in bytes. Plain data; no step changes it (log 5). -/
structure Build where
  engine : HashEngine
  B      : Nat
  L      : Nat
  keyMax : Nat
  msgMax : Nat
  deriving DecidableEq, Repr

/-- The constraints of 00_scope.md R7, required of every build. The last line, which ties the reference engine to its
own sizes (R8), is none of R7's bounds but the model's choice (log 7). -/
def Build.valid (b : Build) : Bool :=
  decide (1 ≤ b.B ∧ b.B ≤ 65535) &&
  decide (19 ≤ b.L ∧ b.L ≤ 64) &&
  decide (b.B + 1 ≤ b.keyMax ∧ b.keyMax ≤ 65535) &&
  decide (8 ≤ b.msgMax ∧ b.msgMax ≤ 65535) &&
  decide (b.engine = .sha1 → b.B = 64 ∧ b.L = 20)

/-- The reference configuration (00_scope.md R8). -/
def Build.reference : Build :=
  { engine := .sha1, B := 64, L := 20, keyMax := 128, msgMax := 128 }

end Sys2Proof
end

