-- ==== Sys2Proof/Machine/State.lean ====
section
/-!
DEFINITION. The state of the block (10_state.md R20), the steps still to come from outside it (20_memory.md R71), the state
after reset (70_reset_and_hazards.md R290), and the reasons a step can stop.
-/

namespace Sys2Proof.Machine

/-- One bus transaction of the host (00_scope.md R10, 20_memory.md R60), at a byte address (log 9). -/
inductive Transaction where
  | read (a : Nat)
  | write (a : Nat) (v : Word)
  deriving DecidableEq, Repr

/-- One step of the total order of 20_memory.md R71: the host's transaction, the engine's turn (00_scope.md R10), or the
reset input (70_reset_and_hazards.md R290). -/
inductive Event where
  | host (t : Transaction)
  | engine
  | reset
  deriving DecidableEq, Repr

/-- The machine: the state record of 10_state.md R20, element for element; the build's parameters (`build`, log 5); and the
outside world's side: the steps still to come (`schedule`, log 1) and the word the host's last read returned (`rdata`,
log 4). -/
structure State where
  key      : Bytes
  msg      : Bytes
  dig      : Bytes
  dvalid   : Bool
  code     : Bytes
  cbin     : Word
  cmode    : Bool
  cvalid   : Bool
  busy     : Bool
  pend     : Word
  done     : Bool
  err      : BitVec 4
  ovf      : Bool
  bsyw     : Bool
  ie       : Bool
  build    : Build
  schedule : List Event
  rdata    : Word
  deriving DecidableEq, Repr

/-- `zeros(n)` (00_scope.md R12). -/
def zeros (n : Nat) : Bytes := List.replicate n 0

/-- The reset value of every element (10_state.md R20, 70_reset_and_hazards.md R290), for any build, with nothing to come and
no read yet. -/
def State.resetOf (b : Build) : State :=
  { key := [], msg := [], dig := zeros b.L, dvalid := false, code := [], cbin := 0, cmode := false, cvalid := false,
    busy := false, pend := 0, done := false, err := 0, ovf := false, bsyw := false, ie := false,
    build := b, schedule := [], rdata := 0 }

/-- The machine right after reset, in the reference configuration (00_scope.md R8). -/
def State.reset : State := State.resetOf Build.reference

/-- The reasons a step stops with a fault. The block itself never traps (60_exceptions.md R260). -/
inductive Fault where
  /-- Raised by the engine's turn alone, in a state with `busy = 1` whose `pend` is no HMAC, HOTP or TRUNC word or holds a
  digit count that acceptance refuses. The spec gives no completion for one and no run reaches one (10_state.md R23(a),
  42_commands.md R192). Safe: the model stops where the spec says nothing (log 10). -/
  | noCompletion
  deriving DecidableEq, Repr

/-- The reasons the model gives a step no meaning. -/
inductive Refusal where
  /-- Raised by an arm of `exec` whose instruction has no meaning yet. Safe. No arm does. -/
  | notModelled (mnemonic : String)
  /-- Raised by `step` where the build is outside the bounds of 00_scope.md R7, which says a model refuses it, or is a
  SHA-1 build without SHA-1's own sizes, which the model refuses by its own choice. Safe (log 7). -/
  | invalidBuild
  deriving DecidableEq, Repr

end Sys2Proof.Machine
end

