-- ==== Sys2Proof/Machine/Operands.lean ====
section
/-!
DEFINITION. Byte sequences and the operand forms of the data ports and the register windows (00_scope.md R12, 20_memory.md
R62, R63, 30_encoding.md R84).
-/

namespace Sys2Proof.Machine

/-- `b(j)` of 20_memory.md R62: byte `j` of a sequence, 0 at a position the sequence does not reach. -/
def byteAt (s : Bytes) (j : Nat) : Byte := s.getD j 0

/-- `fit_n(s) = take(n, s ++ zeros(n))` (00_scope.md R12). -/
def fit (n : Nat) (s : Bytes) : Bytes := (s ++ zeros n).take n

/-- `rep(n, b)` (00_scope.md R12). -/
def rep (n : Nat) (b : Byte) : Bytes := List.replicate n b

/-- `s XOR t`, byte by byte (00_scope.md R12). -/
def xorBytes (s t : Bytes) : Bytes := List.zipWith (· ^^^ ·) s t

/-- Four bytes as one word, the first in bits [31:24]. -/
def word4 (b0 b1 b2 b3 : Byte) : Word := b0 ++ b1 ++ b2 ++ b3

/-- `packBE(s, i)`: word `i` of a byte sequence, big-endian (20_memory.md R62). -/
def packBE (s : Bytes) (i : Nat) : Word :=
  word4 (byteAt s (4 * i)) (byteAt s (4 * i + 1)) (byteAt s (4 * i + 2)) (byteAt s (4 * i + 3))

/-- The operand of an 8-bit data port: `v[7:0]` (10_state.md R36, R38). -/
def portByte (v : Word) : Bytes := [v.extractLsb' 0 8]

/-- The operand of a 32-bit data port: `v[31:24], v[23:16], v[15:8], v[7:0]` (10_state.md R37, R39, 20_memory.md R63). -/
def portWord (v : Word) : Bytes :=
  [v.extractLsb' 24 8, v.extractLsb' 16 8, v.extractLsb' 8 8, v.extractLsb' 0 8]

end Sys2Proof.Machine
end

