-- ==== Sys2Proof/Machine/Flags.lean ====
section
/-!
DEFINITION. The error codes (60_exceptions.md R261), the interrupt line (R270) and the STATUS word (10_state.md R31).
-/

namespace Sys2Proof.Machine

/-- The named outcomes of a command write (60_exceptions.md R261). `invalidKey` is allocated and never raised (R267). -/
inductive ErrCode where
  | none | illegalCmd | invalidDigits | noDigest | busy | invalidKey
  deriving DecidableEq, Repr

/-- The value of STATUS.ERR for each outcome (60_exceptions.md R261). -/
def errBits : ErrCode → BitVec 4
  | .none => 0
  | .illegalCmd => 1
  | .invalidDigits => 2
  | .noDigest => 3
  | .busy => 4
  | .invalidKey => 5

/-- The output line `irq = ie AND done` (10_state.md R26, 60_exceptions.md R270). -/
def irq (s : State) : Bool := s.ie && s.done

/-- The read value of STATUS, from bit 31 down to bit 0 (10_state.md R31). -/
def statusWord (s : State) : Word :=
  0#4 ++ cmdOp s.pend ++ BitVec.ofBool s.cmode ++ BitVec.ofNat 7 s.code.length ++ 0#4 ++ s.err ++ 0#1 ++
    BitVec.ofBool s.bsyw ++ BitVec.ofBool s.ovf ++ BitVec.ofBool (irq s) ++ BitVec.ofBool s.cvalid ++
    BitVec.ofBool s.dvalid ++ BitVec.ofBool s.done ++ BitVec.ofBool s.busy

end Sys2Proof.Machine
end

