-- ==== Sys2Proof/Machine/Sha1.lean ====
section
/-!
DEFINITION. The reference hash engine, SHA-1 (00_scope.md R8). PRESUMED: the algorithm is not in the spec, which takes it from
FIPS 180-4 and so does the model (log 6).
-/

namespace Sys2Proof.Machine

/-- The five chaining words. -/
structure Sha1Chain where
  a : Word
  b : Word
  c : Word
  d : Word
  e : Word
  deriving DecidableEq, Repr

/-- The initial chaining value. -/
def sha1Init : Sha1Chain := ⟨0x67452301, 0xEFCDAB89, 0x98BADCFE, 0x10325476, 0xC3D2E1F0⟩

/-- The function of round `t`. -/
def sha1F (t : Nat) (b c d : Word) : Word :=
  if t < 20 then (b &&& c) ||| (~~~b &&& d)
  else if t < 40 then b ^^^ c ^^^ d
  else if t < 60 then (b &&& c) ||| (b &&& d) ||| (c &&& d)
  else b ^^^ c ^^^ d

/-- The constant of round `t`. -/
def sha1K (t : Nat) : Word :=
  if t < 20 then 0x5A827999
  else if t < 40 then 0x6ED9EBA1
  else if t < 60 then 0x8F1BBCDC
  else 0xCA62C1D6

/-- Round `t` with message word `w`. -/
def sha1Round (t : Nat) (w : Word) (h : Sha1Chain) : Sha1Chain :=
  ⟨h.a.rotateLeft 5 + sha1F t h.b h.c h.d + h.e + sha1K t + w, h.a, h.b.rotateLeft 30, h.c, h.d⟩

/-- The message word after the sixteen of the window `ws`. -/
def sha1Expand (ws : List Word) : Word :=
  (ws.getD 13 0 ^^^ ws.getD 8 0 ^^^ ws.getD 2 0 ^^^ ws.getD 0 0).rotateLeft 1

/-- The last `n` of the eighty rounds, on the window of the next sixteen message words. -/
def sha1Rounds : Nat → List Word → Sha1Chain → Sha1Chain
  | 0, _, h => h
  | n + 1, ws, h => sha1Rounds n (ws.tail ++ [sha1Expand ws]) (sha1Round (79 - n) (ws.headD 0) h)

/-- One 64-byte block. -/
def sha1Block (h : Sha1Chain) (block : Bytes) : Sha1Chain :=
  let r := sha1Rounds 80 ((List.range 16).map (packBE block)) h
  ⟨h.a + r.a, h.b + r.b, h.c + r.c, h.d + r.d, h.e + r.e⟩

/-- The next `n` blocks of a padded message. -/
def sha1Blocks : Nat → Bytes → Sha1Chain → Sha1Chain
  | 0, _, h => h
  | n + 1, m, h => sha1Blocks n (m.drop 64) (sha1Block h (m.take 64))

/-- Padding: the byte 0x80, zero bytes, and the bit length in 8 big-endian bytes, to a multiple of 64 bytes. -/
def sha1Pad (m : Bytes) : Bytes :=
  m ++ 0x80 :: zeros ((119 - m.length % 64) % 64) ++
    (List.range 8).map fun i => BitVec.ofNat 8 (8 * m.length / 256 ^ (7 - i))

/-- SHA-1. -/
def sha1 (m : Bytes) : Bytes :=
  let p := sha1Pad m
  let r := sha1Blocks (p.length / 64) p sha1Init
  portWord r.a ++ portWord r.b ++ portWord r.c ++ portWord r.d ++ portWord r.e

end Sys2Proof.Machine
end

