-- ==== Sys2Proof/Machine/Hmac.lean ====
section
/-!
DEFINITION. The HMAC datapath (40_hmac.md): the hash engine, key normalisation, the XORed pads and the two passes.
-/

namespace Sys2Proof.Machine

/-- `H(x)` of the build: a total function of its input whose output has exactly `L` bytes (00_scope.md R6). -/
def hash (b : Build) (x : Bytes) : Bytes :=
  fit b.L (match b.engine with
    | .sha1 => sha1 x
    | .other id => Config.hashOther id x)

/-- `normKey(km, k)` (40_hmac.md R111). `km` false is KM = 0. -/
def normKey (b : Build) (km : Bool) (k : Bytes) : Bytes :=
  if k.length ≤ b.B then fit b.B k
  else if km then fit b.B k
  else fit b.B (hash b k)

/-- `ipad = rep(B, 0x36)` (40_hmac.md R113). -/
def ipad (b : Build) : Bytes := rep b.B 0x36

/-- `opad = rep(B, 0x5C)` (40_hmac.md R113). -/
def opad (b : Build) : Bytes := rep b.B 0x5C

/-- `Ki ++ m` hashed, the inner pass (40_hmac.md R114, R115). -/
def innerPass (b : Build) (k' m : Bytes) : Bytes := hash b (xorBytes k' (ipad b) ++ m)

/-- `Ko ++ inner` hashed, the outer pass (40_hmac.md R114, R116). -/
def outerPass (b : Build) (k' inner : Bytes) : Bytes := hash b (xorBytes k' (opad b) ++ inner)

/-- `hmac(km, k, m)` (40_hmac.md R117). -/
def hmac (b : Build) (km : Bool) (k m : Bytes) : Bytes :=
  outerPass b (normKey b km k) (innerPass b (normKey b km k) m)

end Sys2Proof.Machine
end

