-- ==== Sys2Proof/Machine/Hotp.lean ====
section
/-!
DEFINITION. HOTP truncation and modular reduction (41_hotp.md): the digit-count check and the two ways from a tag to a code.
-/

namespace Sys2Proof.Machine

/-- `validDigits(tm, N)` for digest length `L` (41_hotp.md R141). `tm` false is TM = 0, the RFC scheme. -/
def validDigits (L : Nat) (tm : Bool) (n : Nat) : Bool :=
  if tm then decide (1 ≤ n ∧ n ≤ L) else decide (1 ≤ n ∧ n ≤ 10)

/-- `prefixCode(N, d)`: the first `N` tag bytes, each mod 10 (41_hotp.md R142). -/
def prefixCode (n : Nat) (d : Bytes) : Bytes :=
  (List.range n).map fun j => BitVec.ofNat 8 ((byteAt d j).toNat % 10)

/-- `off = d[L-1] & 0x0F` (41_hotp.md R145). -/
def rfcOffset (L : Nat) (d : Bytes) : Nat := (byteAt d (L - 1) &&& 0x0F).toNat

/-- The window `P`, `d[off]` most significant (41_hotp.md R146). -/
def rfcWindow (L : Nat) (d : Bytes) : Word :=
  let off := rfcOffset L d
  word4 (byteAt d off) (byteAt d (off + 1)) (byteAt d (off + 2)) (byteAt d (off + 3))

/-- The 31-bit extract `S = P & 0x7FFFFFFF` (41_hotp.md R147). -/
def rfcExtract (L : Nat) (d : Bytes) : Nat := (rfcWindow L d &&& 0x7FFFFFFF).toNat

/-- The reduction `C = S mod 10^N` (41_hotp.md R148). -/
def rfcValue (L n : Nat) (d : Bytes) : Nat := rfcExtract L d % 10 ^ n

/-- The `n` decimal digits of `c`, most significant first (41_hotp.md R149). -/
def decimalDigits (n c : Nat) : Bytes :=
  (List.range n).map fun j => BitVec.ofNat 8 (c / 10 ^ (n - 1 - j) % 10)

/-- `hotpCode(tm, N, d)` (41_hotp.md R152): the digits and `cbin` (R150), or nothing where the digit count is invalid. -/
def hotpCode (L : Nat) (tm : Bool) (n : Nat) (d : Bytes) : Option (Bytes × Word) :=
  if validDigits L tm n then
    if tm then some (prefixCode n d, 0)
    else some (decimalDigits n (rfcValue L n d), BitVec.ofNat 32 (rfcValue L n d))
  else none

end Sys2Proof.Machine
end

