-- ==== Sys2Proof/Machine/Ops.lean ====
section
/-!
DEFINITION. The named operations the meanings share: reporting an error, accepting a command, pushing bytes, reading a register,
resetting the block, and forming the instruction a transaction is.
-/

namespace Sys2Proof.Machine

/-- `reject BUSY` (60_exceptions.md R263). -/
def rejectBusy (s : State) : State := { s with err := errBits .busy }

/-- `fail E` (60_exceptions.md R262), the block's only exception entry: it saves nothing and transfers no control (R272). -/
def failCmd (e : ErrCode) (s : State) : State := { s with err := errBits e, done := true }

/-- Acceptance of an immediate command, beside its own effect (42_commands.md R173). -/
def acceptImmediate (w : Word) (s : State) : State :=
  { s with pend := w, done := true, err := errBits .none }

/-- Acceptance of a busy command, the part all three share (42_commands.md R172). -/
def acceptBusy (w : Word) (s : State) : State :=
  { s with
    busy := true, pend := w, done := false, err := errBits .none
    cvalid := false, code := [], cbin := 0, cmode := false }

/-- The part of acceptance that HMAC and HOTP alone have (42_commands.md R172). -/
def dropTag (s : State) : State := { s with dvalid := false, dig := zeros s.build.L }

/-- The effect ZEROIZE has of its own (42_commands.md R180): every element but `ie`, `busy` and those its acceptance writes. -/
def zeroizeState (s : State) : State :=
  { s with
    key := [], msg := [], dig := zeros s.build.L, dvalid := false
    code := [], cbin := 0, cmode := false, cvalid := false, ovf := false, bsyw := false }

/-- The effect of a STATUS write (43_bus.md R217): bit 1 clears DONE; bit 15, ERRCLR, clears ERR, OVF and BSYW. -/
def writeStatus (v : Word) (s : State) : State :=
  { s with
    done := if v.getLsbD 1 then false else s.done
    err := if v.getLsbD 15 then errBits .none else s.err
    ovf := if v.getLsbD 15 then false else s.ovf
    bsyw := if v.getLsbD 15 then false else s.bsyw }

/-- The first check of every CMD write (42_commands.md R170): rejected with BUSY while a command is in flight, else `t`. -/
def unlessBusy (s t : State) : Host.Outcome State Fault Refusal :=
  if s.busy then .next (rejectBusy s) else .next t

/-- A push of the bytes `bs` onto the key, all of them or none (43_bus.md R218, R219). -/
def pushKey (bs : Bytes) (s : State) : State :=
  if s.busy then { s with bsyw := true }
  else if s.key.length + bs.length > s.build.keyMax then { s with ovf := true }
  else { s with key := s.key ++ bs }

/-- A push of the bytes `bs` onto the message, all of them or none (43_bus.md R220, R221). -/
def pushMsg (bs : Bytes) (s : State) : State :=
  if s.busy then { s with bsyw := true }
  else if s.msg.length + bs.length > s.build.msgMax then { s with ovf := true }
  else { s with msg := s.msg ++ bs }

/-- `view(idx)`: the read value of the register at `idx` (43_bus.md R210, layouts in 10_state.md R27 to R42). -/
def view (s : State) (idx : BitVec 6) : Word :=
  match regAt idx with
  | .id => 0x484D4143
  | .param => 0#8 ++ BitVec.ofNat 8 s.build.L ++ BitVec.ofNat 16 s.build.B
  | .cap => BitVec.ofNat 16 s.build.msgMax ++ BitVec.ofNat 16 s.build.keyMax
  | .ctrl => (BitVec.ofBool s.ie).setWidth 32
  | .status => statusWord s
  | .keyLen => (BitVec.ofNat 16 s.key.length).setWidth 32
  | .msgLen => (BitVec.ofNat 16 s.msg.length).setWidth 32
  | .codeBin => s.cbin
  | .digest i => packBE s.dig i
  | .code i => packBE s.code i
  | .cmd | .keyData8 | .keyData32 | .msgData8 | .msgData32 | .reserved => 0

/-- A `Reset` step: every element of the record at its reset value (70_reset_and_hazards.md R290). The build, the steps still to
come and the host's last read are outside the record and stay (log 1, 4, 5). -/
def resetBlock (s : State) : State :=
  { State.resetOf s.build with schedule := s.schedule, rdata := s.rdata }

/-- The instruction a transaction is: its selector (30_encoding.md R81) read by the decoder (R90). -/
def transactionInstr : Transaction → Instr
  | .read a => .rd (wordIndex a)
  | .write a v => decodeWrite (wordIndex a) v

/-- The transaction whose instruction is the row of `nbits` bits with value `w`, where the decoder accepts that row: a command
word is carried by a write to CMD at offset 0x14 (42_commands.md R170, log 18). -/
def tableTransaction (nbits w : Nat) : Option Transaction :=
  match tableEncoded nbits w with
  | .error _ => none
  | .ok (.cmdw c) => some (.write 0x14 c)
  | .ok (.bus sel v) =>
    match decodeSelector sel v with
    | .error _ => none
    | .ok _ =>
      if sel.getLsbD 7 then some (.write (4 * (sel.extractLsb' 0 6).toNat) v)
      else some (.read (4 * (sel.extractLsb' 0 6).toNat))

end Sys2Proof.Machine
end

