-- ==== Sys2Proof/Machine/Commands.lean ====
section
/-!
DEFINITION. The meaning of each command word written to CMD (42_commands.md R170 to R181). Each makes the checks of R170 that
concern it, in R170's order.
-/

namespace Sys2Proof.Machine

/-- NOP (42_commands.md R174). -/
def execNop (km tm : Bool) (n : BitVec 7) (s : State) : Host.Outcome State Fault Refusal :=
  unlessBusy s (acceptImmediate (cmdWord 0 km tm n) s)

/-- HMAC (42_commands.md R175): acceptance. Its completion is `completeHmac`. -/
def execHmac (km tm : Bool) (n : BitVec 7) (s : State) : Host.Outcome State Fault Refusal :=
  unlessBusy s (acceptBusy (cmdWord 1 km tm n) (dropTag s))

/-- HOTP (42_commands.md R176): the digit check, then acceptance. Its completion is `completeHotp`. -/
def execHotp (km tm : Bool) (n : BitVec 7) (s : State) : Host.Outcome State Fault Refusal :=
  unlessBusy s
    (if validDigits s.build.L tm n.toNat then acceptBusy (cmdWord 2 km tm n) (dropTag s)
     else failCmd .invalidDigits s)

/-- TRUNC (42_commands.md R177): the digit check, the tag check, then acceptance. Its completion is `completeTrunc`. -/
def execTrunc (km tm : Bool) (n : BitVec 7) (s : State) : Host.Outcome State Fault Refusal :=
  unlessBusy s
    (if validDigits s.build.L tm n.toNat then
       if s.dvalid then acceptBusy (cmdWord 3 km tm n) s else failCmd .noDigest s
     else failCmd .invalidDigits s)

/-- CLRKEY (42_commands.md R178). -/
def execClrkey (km tm : Bool) (n : BitVec 7) (s : State) : Host.Outcome State Fault Refusal :=
  unlessBusy s (acceptImmediate (cmdWord 4 km tm n) { s with key := [] })

/-- CLRMSG (42_commands.md R179). -/
def execClrmsg (km tm : Bool) (n : BitVec 7) (s : State) : Host.Outcome State Fault Refusal :=
  unlessBusy s (acceptImmediate (cmdWord 5 km tm n) { s with msg := [] })

/-- ZEROIZE (42_commands.md R180). -/
def execZeroize (km tm : Bool) (n : BitVec 7) (s : State) : Host.Outcome State Fault Refusal :=
  unlessBusy s (acceptImmediate (cmdWord 6 km tm n) (zeroizeState s))

/-- A reserved opcode or a reserved bit (42_commands.md R181): the word itself leaves no trace (60_exceptions.md R261). -/
def execIllegal (_w : Word) (s : State) : Host.Outcome State Fault Refusal :=
  unlessBusy s (failCmd .illegalCmd s)

end Sys2Proof.Machine
end

