-- ==== Sys2Proof/Machine/Bus.lean ====
section
/-!
DEFINITION. The meaning of each bus transaction (43_bus.md R210 to R222).
-/

namespace Sys2Proof.Machine

/-- RD (43_bus.md R210): the host receives `view(idx)`; the block does not change. -/
def execRd (idx : BitVec 6) (s : State) : Host.Outcome State Fault Refusal :=
  .next { s with rdata := view s idx }

/-- WR.CTRL (43_bus.md R215). -/
def execWrCtrl (v : Word) (s : State) : Host.Outcome State Fault Refusal :=
  .next { s with ie := v.getLsbD 0 }

/-- WR.STATUS (43_bus.md R217). -/
def execWrStatus (v : Word) (s : State) : Host.Outcome State Fault Refusal :=
  .next (writeStatus v s)

/-- WR.KEY_DATA8 (43_bus.md R218). -/
def execWrKeyData8 (v : Word) (s : State) : Host.Outcome State Fault Refusal :=
  .next (pushKey (portByte v) s)

/-- WR.KEY_DATA32 (43_bus.md R219). -/
def execWrKeyData32 (v : Word) (s : State) : Host.Outcome State Fault Refusal :=
  .next (pushKey (portWord v) s)

/-- WR.MSG_DATA8 (43_bus.md R220). -/
def execWrMsgData8 (v : Word) (s : State) : Host.Outcome State Fault Refusal :=
  .next (pushMsg (portByte v) s)

/-- WR.MSG_DATA32 (43_bus.md R221). -/
def execWrMsgData32 (v : Word) (s : State) : Host.Outcome State Fault Refusal :=
  .next (pushMsg (portWord v) s)

/-- WR.NOEFFECT (43_bus.md R213): nothing. -/
def execWrNoEffect (_idx : BitVec 6) (_v : Word) (s : State) : Host.Outcome State Fault Refusal :=
  .next s

/-- WR.CMD (43_bus.md R222): `CmdWrite(v)` (42_commands.md R170). The word is decoded and its command's checks and effect
follow; each command makes R170's BUSY check before any other. -/
def execWrCmd (v : Word) (s : State) : Host.Outcome State Fault Refusal :=
  if cmdReserved v then execIllegal v s
  else
    match (cmdOp v).toNat with
    | 0 => execNop (cmdKm v) (cmdTm v) (cmdDigits v) s
    | 1 => execHmac (cmdKm v) (cmdTm v) (cmdDigits v) s
    | 2 => execHotp (cmdKm v) (cmdTm v) (cmdDigits v) s
    | 3 => execTrunc (cmdKm v) (cmdTm v) (cmdDigits v) s
    | 4 => execClrkey (cmdKm v) (cmdTm v) (cmdDigits v) s
    | 5 => execClrmsg (cmdKm v) (cmdTm v) (cmdDigits v) s
    | 6 => execZeroize (cmdKm v) (cmdTm v) (cmdDigits v) s
    | _ => execIllegal v s

end Sys2Proof.Machine
end

