-- ==== Sys2Proof/Machine/Dispatch.lean ====
section
/-! DEFINITION. The one match over the instructions: each arm calls its meaning. -/

namespace Sys2Proof.Machine

/-- The meaning of an instruction. -/
def exec (i : Instr) (s : State) : Host.Outcome State Fault Refusal :=
  match i with
  | .nop km tm n => Sys2Proof.Machine.execNop km tm n s
  | .hmac km tm n => Sys2Proof.Machine.execHmac km tm n s
  | .hotp km tm n => Sys2Proof.Machine.execHotp km tm n s
  | .trunc km tm n => Sys2Proof.Machine.execTrunc km tm n s
  | .clrkey km tm n => Sys2Proof.Machine.execClrkey km tm n s
  | .clrmsg km tm n => Sys2Proof.Machine.execClrmsg km tm n s
  | .zeroize km tm n => Sys2Proof.Machine.execZeroize km tm n s
  | .illegal w => Sys2Proof.Machine.execIllegal w s
  | .rd idx => Sys2Proof.Machine.execRd idx s
  | .wrCtrl v => Sys2Proof.Machine.execWrCtrl v s
  | .wrStatus v => Sys2Proof.Machine.execWrStatus v s
  | .wrCmd v => Sys2Proof.Machine.execWrCmd v s
  | .wrKeyData8 v => Sys2Proof.Machine.execWrKeyData8 v s
  | .wrKeyData32 v => Sys2Proof.Machine.execWrKeyData32 v s
  | .wrMsgData8 v => Sys2Proof.Machine.execWrMsgData8 v s
  | .wrMsgData32 v => Sys2Proof.Machine.execWrMsgData32 v s
  | .wrNoEffect idx v => Sys2Proof.Machine.execWrNoEffect idx v s

end Sys2Proof.Machine
end

