-- ==== Sys2Proof/Machine/Engine.lean ====
section
/-!
DEFINITION. The engine's step `Complete` (42_commands.md R190 to R193).
-/

namespace Sys2Proof.Machine

/-- The effects every completion has: `busy <- 0; done <- 1` (42_commands.md R190). -/
def finish (s : State) : State := { s with busy := false, done := true }

/-- Completion of HMAC (42_commands.md R191). -/
def completeHmac (s : State) : Host.Outcome State Fault Refusal :=
  .next (finish
    { s with
      dig := hmac s.build (cmdKm s.pend) s.key s.msg, dvalid := true
      key := [], msg := [] })

/-- Completion of HOTP (42_commands.md R192). -/
def completeHotp (s : State) : Host.Outcome State Fault Refusal :=
  let t := hmac s.build (cmdKm s.pend) s.key s.msg
  match hotpCode s.build.L (cmdTm s.pend) (cmdDigits s.pend).toNat t with
  | some (digits, cb) =>
    .next (finish
      { s with
        dig := t, dvalid := true
        code := digits, cbin := cb, cmode := cmdTm s.pend, cvalid := true
        key := [], msg := [] })
  | none => .fault .noCompletion

/-- Completion of TRUNC (42_commands.md R193). -/
def completeTrunc (s : State) : Host.Outcome State Fault Refusal :=
  match hotpCode s.build.L (cmdTm s.pend) (cmdDigits s.pend).toNat s.dig with
  | some (digits, cb) =>
    .next (finish { s with code := digits, cbin := cb, cmode := cmdTm s.pend, cvalid := true })
  | none => .fault .noCompletion

/-- `Complete` (42_commands.md R190): the completion part of the command `pend` holds. -/
def complete (s : State) : Host.Outcome State Fault Refusal :=
  match (cmdOp s.pend).toNat with
  | 1 => completeHmac s
  | 2 => completeHotp s
  | 3 => completeTrunc s
  | _ => .fault .noCompletion

/-- The engine's turn: `Complete` is enabled exactly when `busy = 1` (42_commands.md R190); otherwise nothing happens (log 3). -/
def engineTurn (s : State) : Host.Outcome State Fault Refusal :=
  if s.busy then complete s else .next s

end Sys2Proof.Machine
end

