-- ==== Sys2Proof/Machine/Step.lean ====
section
/-!
DEFINITION. One step of the machine: the next step of the total order of 20_memory.md R71.
-/

namespace Sys2Proof.Machine

/-- What one scheduled event does (00_scope.md R10, 70_reset_and_hazards.md R290). -/
def runEvent (e : Event) (s : State) : Host.Outcome State Fault Refusal :=
  match e with
  | .host t => exec (transactionInstr t) s
  | .engine => engineTurn s
  | .reset => .next (resetBlock s)

/-- One step: the first event of the schedule, which it consumes; with nothing scheduled, the engine's turn (log 2). A build
that is not valid is refused (00_scope.md R7, log 7). -/
def step (s : State) : Host.Outcome State Fault Refusal :=
  if s.build.valid then
    match s.schedule with
    | [] => engineTurn s
    | e :: rest => runEvent e { s with schedule := rest }
  else .refused .invalidBuild

/-- `s` with the host's next transaction being the row of `nbits` bits with value `w` (log 1, 18). A row the decoder refuses is
no transaction and places nothing. -/
def State.withFetchWord (s : State) (nbits w : Nat) : State :=
  match tableTransaction nbits w with
  | some t => { s with schedule := .host t :: s.schedule }
  | none => s

end Sys2Proof.Machine
end

