-- ==== Sys2Proof/Safety.lean ====
section
/-!
DEFINITION. What the statements about whole runs are said in: which instructions write CMD, a run of several steps, and the
invariant of the machine (10_state.md R20, R23, and what 42_commands.md R192 rests on).
-/

namespace Sys2Proof

/-- The instructions that are a write to CMD: every command word and WR.CMD (43_bus.md R222, 30_encoding.md R80). -/
def Instr.writesCmd : Instr → Bool
  | .nop _ _ _ | .hmac _ _ _ | .hotp _ _ _ | .trunc _ _ _ | .clrkey _ _ _ | .clrmsg _ _ _ | .zeroize _ _ _
  | .illegal _ | .wrCmd _ => true
  | .rd _ | .wrCtrl _ | .wrStatus _ | .wrKeyData8 _ | .wrKeyData32 _ | .wrMsgData8 _ | .wrMsgData32 _
  | .wrNoEffect _ _ => false

end Sys2Proof

namespace Sys2Proof.Machine

/-- `k` steps, stopping at the first that answers no next state (as `Host.Core.run` does). -/
def run : Nat → State → Host.Outcome State Fault Refusal
  | 0, s => .next s
  | k + 1, s =>
    match step s with
    | .next t => run k t
    | .fault r => .fault r
    | .refused r => .refused r

/-- What every state of a run satisfies. Each field names the clause it states. -/
structure StateInv (s : State) : Prop where
  /-- 00_scope.md R7. -/
  build : s.build.valid = true
  /-- 10_state.md R23(f). -/
  keyFits : s.key.length ≤ s.build.keyMax
  /-- 10_state.md R23(f). -/
  msgFits : s.msg.length ≤ s.build.msgMax
  /-- 10_state.md R20: `len(dig) = L`. -/
  tagLength : s.dig.length = s.build.L
  /-- 10_state.md R20: `pend` is a command word that was accepted (or 0), so its reserved bits are 0. -/
  pendReserved : cmdReserved s.pend = false
  /-- 10_state.md R20: `pend` was accepted, so its opcode is no reserved one. -/
  pendOp : (cmdOp s.pend).toNat ≤ 6
  /-- 10_state.md R23(a). -/
  busyOp : s.busy = true → (cmdOp s.pend).toNat = 1 ∨ (cmdOp s.pend).toNat = 2 ∨ (cmdOp s.pend).toNat = 3
  /-- 42_commands.md R192: acceptance checked the digit count. -/
  busyDigits : s.busy = true → 2 ≤ (cmdOp s.pend).toNat →
    validDigits s.build.L (cmdTm s.pend) (cmdDigits s.pend).toNat = true
  /-- 42_commands.md R172, R177: a tag is held while a command runs exactly when it is TRUNC. -/
  busyTag : s.busy = true → (s.dvalid = true ↔ (cmdOp s.pend).toNat = 3)
  /-- 42_commands.md R172. -/
  busyCode : s.busy = true → s.cvalid = false
  /-- 10_state.md R23(g). -/
  busyDone : s.busy = true → s.done = false
  /-- 10_state.md R23(b). -/
  noTag : s.dvalid = false → s.dig = zeros s.build.L
  /-- 10_state.md R23(c). -/
  noCode : s.cvalid = false → s.code = [] ∧ s.cbin = 0 ∧ s.cmode = false
  /-- 10_state.md R23(d). -/
  codeNonempty : s.cvalid = true → 1 ≤ s.code.length
  /-- 10_state.md R23(e). -/
  codeTag : s.cvalid = true → s.dvalid = true
  /-- 42_commands.md R192, R193: a held code is the code of the held tag. -/
  codeOfTag : s.cvalid = true → hotpCode s.build.L s.cmode s.code.length s.dig = some (s.code, s.cbin)
  /-- 10_state.md R20: each byte of the code is 0..9. -/
  codeDigits : ∀ d ∈ s.code, d.toNat ≤ 9
  /-- 10_state.md R20: `len(code) <= 64`. -/
  codeLength : s.code.length ≤ 64
  /-- 60_exceptions.md R261: codes 5 to 15 are never raised. -/
  errCode : s.err.toNat ≤ 4

end Sys2Proof.Machine
end

