-- ==== Sys2Proof/Certificates/Slice0/Obligations.lean ====
section
/-!
DEFINITION. The statements for the provers, family by family. Each docstring names the rules of spec/ it formalises.
-/

open Sys2Proof Sys2Proof.Machine

/-! ### Encoding and decoding -/

/-- 30_encoding.md R82, R85, R91: words written out from the tables decode to the commands they spell. -/
def Obligations.WrittenOutWordsDecode : Prop :=
  decodeCommand 0x00000000 = .nop false false 0 ∧
  decodeCommand 0x007F0300 = .nop true true 127 ∧
  decodeCommand 0x00000101 = .hmac true false 0 ∧
  decodeCommand 0x00060002 = .hotp false false 6 ∧
  decodeCommand 0x00080202 = .hotp false true 8 ∧
  decodeCommand 0x00060203 = .trunc false true 6 ∧
  decodeCommand 0x00000004 = .clrkey false false 0 ∧
  decodeCommand 0x00000005 = .clrmsg false false 0 ∧
  decodeCommand 0x00000006 = .zeroize false false 0 ∧
  decodeCommand 0x00800002 = .illegal 0x00800002 ∧
  decodeCommand 0x80000001 = .illegal 0x80000001 ∧
  decodeCommand 0x00000007 = .illegal 0x00000007 ∧
  decode (.bus 0x10 0) = .ok (.rd 16) ∧
  decode (.bus 0x83 1) = .ok (.wrCtrl 1) ∧
  decode (.bus 0x8A 0x31323334) = .ok (.wrKeyData32 0x31323334) ∧
  decode (.bus 0x90 5) = .ok (.wrNoEffect 16 5)

/-- 30_encoding.md sections 1 to 3: decoding the encoding of a well-formed instruction gives it back. -/
def Obligations.DecodeOfEncodeIsTheInstruction : Prop :=
  ∀ i : Instr, i.WellFormed → decode (encode i) = .ok i

/-- 30_encoding.md sections 2 and 3: every 32-bit word is one well-formed command row, and that row's encoding is the word. -/
def Obligations.EveryCommandWordIsOneRow : Prop :=
  ∀ w : Word, (decodeCommand w).WellFormed ∧ encode (decodeCommand w) = .cmdw w

/-- 30_encoding.md R81, R88, R90: the selector of every transaction is one well-formed bus row, and that row's encoding is the
selector with the data word the transaction carries. -/
def Obligations.EverySelectorIsOneRow : Prop :=
  ∀ (write : Bool) (idx : BitVec 6) (v : Word), ∃ i : Instr,
    decode (.bus (selector write idx) v) = .ok i ∧ i.WellFormed ∧
    encode i = .bus (selector write idx) (if write then v else 0)

/-- 30_encoding.md R83: the reserved-bit mask, and the fields of a word without reserved bits put it together again. -/
def Obligations.CommandFieldsAndReservedMask : Prop :=
  ∀ w : Word,
    (cmdReserved w = true ↔ w &&& 0xFF80FCF0#32 ≠ 0) ∧
    (cmdOp w).toNat = w.toNat % 16 ∧
    cmdKm w = decide (w.toNat / 2 ^ 8 % 2 = 1) ∧
    cmdTm w = decide (w.toNat / 2 ^ 9 % 2 = 1) ∧
    (cmdDigits w).toNat = w.toNat / 2 ^ 16 % 128 ∧
    (cmdReserved w = false → cmdWord (cmdOp w) (cmdKm w) (cmdTm w) (cmdDigits w) = w)

/-- 30_encoding.md R86: each command row is exactly the words its match and mask name, whatever the ignored fields hold. -/
def Obligations.CommandRowsMatchTheirMasks : Prop :=
  ∀ w : Word,
    (w &&& 0xFF80FCFF#32 = 0 ↔ decodeCommand w = .nop (cmdKm w) (cmdTm w) (cmdDigits w)) ∧
    (w &&& 0xFF80FCFF#32 = 1 ↔ decodeCommand w = .hmac (cmdKm w) (cmdTm w) (cmdDigits w)) ∧
    (w &&& 0xFF80FCFF#32 = 2 ↔ decodeCommand w = .hotp (cmdKm w) (cmdTm w) (cmdDigits w)) ∧
    (w &&& 0xFF80FCFF#32 = 3 ↔ decodeCommand w = .trunc (cmdKm w) (cmdTm w) (cmdDigits w)) ∧
    (w &&& 0xFF80FCFF#32 = 4 ↔ decodeCommand w = .clrkey (cmdKm w) (cmdTm w) (cmdDigits w)) ∧
    (w &&& 0xFF80FCFF#32 = 5 ↔ decodeCommand w = .clrmsg (cmdKm w) (cmdTm w) (cmdDigits w)) ∧
    (w &&& 0xFF80FCFF#32 = 6 ↔ decodeCommand w = .zeroize (cmdKm w) (cmdTm w) (cmdDigits w)) ∧
    ((∀ m : Word, m.toNat ≤ 6 → w &&& 0xFF80FCFF#32 ≠ m) ↔ decodeCommand w = .illegal w)

/-- 20_memory.md R65, R67: a transaction is decoded on bits [7:2] of its address alone, whatever the window's base; each index
names one register and no register has two. -/
def Obligations.AddressDecode : Prop :=
  (∀ base off : Nat, base % 256 = 0 → off < 256 → (wordIndex (base + off)).toNat = off / 4) ∧
  (∀ a : Nat, transactionInstr (.read a) = transactionInstr (.read (a / 4 * 4))) ∧
  (∀ (a : Nat) (v : Word), transactionInstr (.write a v) = transactionInstr (.write (a / 4 * 4) v)) ∧
  (∀ i j : BitVec 6, regAt i = regAt j → i = j ∨ regAt i = .reserved)

/-! ### Steps -/

/-- 43_bus.md R211, R222, 20_memory.md R71: a step whose next event is a transaction runs the instruction the decoder reads from
that transaction's selector and data word, on the state with the event consumed; a write to CMD runs the command its data word
decodes to. -/
def Obligations.StepRunsTheDecodedInstruction : Prop :=
  ∀ (s : State) (rest : List Event) (a : Nat) (v : Word) (i : Instr), s.build.valid = true →
    (s.schedule = .host (.read a) :: rest → decode (.bus (selector false (wordIndex a)) 0) = .ok i →
      step s = exec i { s with schedule := rest }) ∧
    (s.schedule = .host (.write a v) :: rest → decode (.bus (selector true (wordIndex a)) v) = .ok i →
      step s = exec i { s with schedule := rest }) ∧
    (s.schedule = .host (.write a v) :: rest → a / 4 % 64 = 5 → decode (.cmdw v) = .ok i →
      step s = exec i { s with schedule := rest })

/-- 42_commands.md R190 and logs 2 and 3: the engine's turn, scheduled or with nothing else to come, does nothing while
`busy = 0` and completes while `busy = 1`. That the empty schedule is the engine's turn is the model's choice (log 2). -/
def Obligations.EngineTurnIsCompleteWhenBusy : Prop :=
  ∀ (s : State) (rest : List Event), s.build.valid = true →
    (s.schedule = .engine :: rest →
      step s = if s.busy then complete { s with schedule := rest } else .next { s with schedule := rest }) ∧
    (s.schedule = [] → step s = if s.busy then complete s else .next s)

/-- 60_exceptions.md R260: every transaction completes, no step of a state of the invariant stops, and a CMD write that reports an
error changes neither the key, the message, the tag nor the code. -/
def Obligations.TheBlockNeverStops : Prop :=
  (∀ (i : Instr) (s : State), ∃ t, exec i s = .next t) ∧
  (∀ s : State, StateInv s → ∃ t, step s = .next t) ∧
  (∀ (i : Instr) (s t : State), i.writesCmd = true → exec i s = .next t → t.err ≠ 0 →
    t.key = s.key ∧ t.msg = s.msg ∧ t.dig = s.dig ∧ t.dvalid = s.dvalid ∧ t.code = s.code ∧ t.cbin = s.cbin ∧
    t.cmode = s.cmode ∧ t.cvalid = s.cvalid)

/-- 00_scope.md R7: a step in a build outside the bounds is refused, and no step of any state changes the build. Two things in it
are the model's choice and no rule's: that the refused builds include a SHA-1 build whose B is not 64 or whose L is not 20, though
R7's bounds admit one (log 7), and that the build is a field of State, which a step could change (log 5). -/
def Obligations.BuildIsCheckedAndConstant : Prop :=
  (∀ s : State, s.build.valid = false → step s = .refused .invalidBuild) ∧
  (∀ s t : State, step s = .next t → t.build = s.build ∧
    view t 0 = view s 0 ∧ view t 1 = view s 1 ∧ view t 2 = view s 2)

/-! ### Reset -/

/-- 70_reset_and_hazards.md R290: a reset step. That the schedule, the build and the host's last read are not part of what it resets
is the model's choice (logs 1, 4, 5). -/
def Obligations.ResetSetsEveryElement : Prop :=
  ∀ (s : State) (rest : List Event), s.build.valid = true → s.schedule = .reset :: rest →
    ∃ t, step s = .next t ∧ irq t = false ∧
      t = { s with
        key := [], msg := [], dig := zeros s.build.L, dvalid := false, code := [], cbin := 0, cmode := false,
        cvalid := false, busy := false, pend := 0, done := false, err := 0, ovf := false, bsyw := false, ie := false,
        schedule := rest }

/-- 70_reset_and_hazards.md R293: what every register reads after reset, for any build and for the reference configuration. -/
def Obligations.RegistersAfterReset : Prop :=
  (∀ b : Build, b.valid = true →
    view (State.resetOf b) 0 = 0x484D4143 ∧
    view (State.resetOf b) 1 = BitVec.ofNat 32 (b.B ||| b.L <<< 16) ∧
    view (State.resetOf b) 2 = BitVec.ofNat 32 (b.keyMax ||| b.msgMax <<< 16) ∧
    (∀ idx : BitVec 6, 3 ≤ idx.toNat → view (State.resetOf b) idx = 0) ∧
    (State.resetOf b).ie = false) ∧
  view State.reset 1 = 0x00140040 ∧ view State.reset 2 = 0x00800080

/-- 70_reset_and_hazards.md R292: a reset while `busy = 1` is followed by no completion, however many turns the engine gets, and no
transaction ends or replaces a running command. -/
def Obligations.OnlyResetAbortsACommand : Prop :=
  (∀ (s : State) (k : Nat), s.build.valid = true → s.busy = true → s.schedule = .reset :: List.replicate k .engine →
    ∃ t, run (k + 1) s = .next t ∧ t.busy = false ∧ t.dvalid = false ∧ t.dig = zeros s.build.L ∧ t.cvalid = false ∧
      t.code = [] ∧ t.done = false ∧ irq t = false) ∧
  (∀ (i : Instr) (s t : State), s.busy = true → exec i s = .next t → t.busy = true ∧ t.pend = s.pend)

/-! ### Commands -/

/-- 42_commands.md R174: NOP. -/
def Obligations.NopOnlyReportsDone : Prop :=
  ∀ (km tm : Bool) (n : BitVec 7) (s : State),
    decodeCommand (cmdWord 0 km tm n) = .nop km tm n ∧
    (s.busy = false → exec (.nop km tm n) s =
      .next { s with pend := cmdWord 0 km tm n, done := true, err := 0 }) ∧
    (s.busy = true → exec (.nop km tm n) s = .next { s with err := 4 })

/-- 42_commands.md R172, R175: acceptance of HMAC, whatever TM and DIGITS hold. -/
def Obligations.HmacIsAccepted : Prop :=
  ∀ (km tm : Bool) (n : BitVec 7) (s : State), s.busy = false →
    exec (.hmac km tm n) s = .next
      { s with
        busy := true, pend := cmdWord 1 km tm n, done := false, err := 0, dvalid := false, dig := zeros s.build.L,
        cvalid := false, code := [], cbin := 0, cmode := false }

/-- 42_commands.md R172, R176: acceptance of HOTP with a valid digit count, and its failure with any other. -/
def Obligations.HotpIsAcceptedOrFails : Prop :=
  ∀ (km tm : Bool) (n : BitVec 7) (s : State), s.busy = false →
    (validDigits s.build.L tm n.toNat = true → exec (.hotp km tm n) s = .next
      { s with
        busy := true, pend := cmdWord 2 km tm n, done := false, err := 0, dvalid := false, dig := zeros s.build.L,
        cvalid := false, code := [], cbin := 0, cmode := false }) ∧
    (validDigits s.build.L tm n.toNat = false →
      exec (.hotp km tm n) s = .next { s with err := 2, done := true })

/-- 42_commands.md R172, R177: acceptance of TRUNC with a valid digit count and a held tag, which it keeps, and its two failures. -/
def Obligations.TruncIsAcceptedOrFails : Prop :=
  ∀ (km tm : Bool) (n : BitVec 7) (s : State), s.busy = false →
    (validDigits s.build.L tm n.toNat = true → s.dvalid = true → exec (.trunc km tm n) s = .next
      { s with
        busy := true, pend := cmdWord 3 km tm n, done := false, err := 0
        cvalid := false, code := [], cbin := 0, cmode := false }) ∧
    (validDigits s.build.L tm n.toNat = true → s.dvalid = false →
      exec (.trunc km tm n) s = .next { s with err := 3, done := true }) ∧
    (validDigits s.build.L tm n.toNat = false →
      exec (.trunc km tm n) s = .next { s with err := 2, done := true })

/-- 42_commands.md R178: CLRKEY. -/
def Obligations.ClrkeyEmptiesTheKey : Prop :=
  ∀ (km tm : Bool) (n : BitVec 7) (s : State),
    decodeCommand (cmdWord 4 km tm n) = .clrkey km tm n ∧
    (s.busy = false → exec (.clrkey km tm n) s =
      .next { s with key := [], pend := cmdWord 4 km tm n, done := true, err := 0 }) ∧
    (s.busy = true → exec (.clrkey km tm n) s = .next { s with err := 4 })

/-- 42_commands.md R179: CLRMSG. -/
def Obligations.ClrmsgEmptiesTheMessage : Prop :=
  ∀ (km tm : Bool) (n : BitVec 7) (s : State),
    decodeCommand (cmdWord 5 km tm n) = .clrmsg km tm n ∧
    (s.busy = false → exec (.clrmsg km tm n) s =
      .next { s with msg := [], pend := cmdWord 5 km tm n, done := true, err := 0 }) ∧
    (s.busy = true → exec (.clrmsg km tm n) s = .next { s with err := 4 })

/-- 42_commands.md R180: ZEROIZE leaves the reset state but for `ie`, `done` and `pend`, and cannot abort a command. -/
def Obligations.ZeroizeIsResetButForThreeElements : Prop :=
  ∀ (km tm : Bool) (n : BitVec 7) (s : State),
    decodeCommand (cmdWord 6 km tm n) = .zeroize km tm n ∧
    (s.busy = false → exec (.zeroize km tm n) s =
      .next { State.resetOf s.build with
        ie := s.ie, done := true, pend := cmdWord 6 km tm n, schedule := s.schedule, rdata := s.rdata }) ∧
    (s.busy = true → exec (.zeroize km tm n) s = .next { s with err := 4 })

/-- 30_encoding.md R87, 42_commands.md R181: a word with a reserved bit or a reserved opcode is illegal, and writing it while idle
fails and changes nothing else. -/
def Obligations.IllegalWordsFail : Prop :=
  ∀ (w : Word) (s : State), (w &&& 0xFF80FCF0#32 ≠ 0 ∨ 7 ≤ w.toNat % 16) →
    decodeCommand w = .illegal w ∧
    (s.busy = false →
      exec (.illegal w) s = .next { s with err := 1, done := true } ∧
      exec (.wrCmd w) s = .next { s with err := 1, done := true })

/-- 42_commands.md R170, 60_exceptions.md R262, R263, R265: the processing of every CMD write, with its checks in their order, the
effect of each outcome, and nothing else. -/
def Obligations.CmdWriteProcessing : Prop :=
  ∀ (w : Word) (s : State),
    exec (.wrCmd w) s = .next
      (if s.busy then { s with err := 4 }
       else if cmdReserved w ∨ 7 ≤ (cmdOp w).toNat then { s with err := 1, done := true }
       else if ((cmdOp w).toNat = 2 ∨ (cmdOp w).toNat = 3) ∧
           ¬ validDigits s.build.L (cmdTm w) (cmdDigits w).toNat then { s with err := 2, done := true }
       else if (cmdOp w).toNat = 3 ∧ ¬ s.dvalid then { s with err := 3, done := true }
       else if (cmdOp w).toNat = 3 then
         { s with
           busy := true, pend := w, done := false, err := 0, cvalid := false, code := [], cbin := 0, cmode := false }
       else if (cmdOp w).toNat = 1 ∨ (cmdOp w).toNat = 2 then
         { s with
           busy := true, pend := w, done := false, err := 0, cvalid := false, code := [], cbin := 0, cmode := false,
           dvalid := false, dig := zeros s.build.L }
       else if (cmdOp w).toNat = 4 then { s with key := [], pend := w, done := true, err := 0 }
       else if (cmdOp w).toNat = 5 then { s with msg := [], pend := w, done := true, err := 0 }
       else if (cmdOp w).toNat = 6 then
         { s with
           key := [], msg := [], dig := zeros s.build.L, dvalid := false, code := [], cbin := 0, cmode := false,
           cvalid := false, ovf := false, bsyw := false, pend := w, done := true, err := 0 }
       else { s with pend := w, done := true, err := 0 })

/-- 30_encoding.md R80, R90: a CMD write does exactly what the command row its word decodes to does. -/
def Obligations.CmdWriteIsItsCommand : Prop :=
  ∀ (w : Word) (s : State), exec (.wrCmd w) s = exec (decodeCommand w) s ∧
    (s.busy = true → exec (decodeCommand w) s = .next { s with err := 4 })

/-! ### Completions -/

/-- 42_commands.md R191, R190: completion of HMAC, by the engine's turn. -/
def Obligations.CompletionOfHmac : Prop :=
  ∀ s : State, s.busy = true → (cmdOp s.pend).toNat = 1 →
    engineTurn s = .next
      { s with
        dig := hmac s.build (cmdKm s.pend) s.key s.msg, dvalid := true, key := [], msg := [], busy := false
        done := true }

/-- 42_commands.md R192, R190: completion of HOTP, by the engine's turn, which cannot fail in a state of the invariant. -/
def Obligations.CompletionOfHotp : Prop :=
  ∀ s : State, StateInv s → s.busy = true → (cmdOp s.pend).toNat = 2 →
    ∃ digits cb,
      hotpCode s.build.L (cmdTm s.pend) (cmdDigits s.pend).toNat
        (hmac s.build (cmdKm s.pend) s.key s.msg) = some (digits, cb) ∧
      engineTurn s = .next
        { s with
          dig := hmac s.build (cmdKm s.pend) s.key s.msg, dvalid := true, code := digits, cbin := cb
          cmode := cmdTm s.pend, cvalid := true, key := [], msg := [], busy := false, done := true }

/-- 42_commands.md R193, R190: completion of TRUNC, by the engine's turn, which cannot fail in a state of the invariant. -/
def Obligations.CompletionOfTrunc : Prop :=
  ∀ s : State, StateInv s → s.busy = true → (cmdOp s.pend).toNat = 3 →
    ∃ digits cb,
      hotpCode s.build.L (cmdTm s.pend) (cmdDigits s.pend).toNat s.dig = some (digits, cb) ∧
      engineTurn s = .next
        { s with
          code := digits, cbin := cb, cmode := cmdTm s.pend, cvalid := true, busy := false, done := true }

/-- 42_commands.md R194: whatever transactions the host makes while a command runs, its completion writes the same tag, code and
buffers as an immediate completion, and leaves the same command word, BUSY and DONE. -/
def Obligations.HostCannotChangeARunningCommand : Prop :=
  ∀ (s : State) (ts : List Transaction) (rest : List Event), StateInv s → s.busy = true →
    s.schedule = ts.map .host ++ .engine :: rest →
    ∃ t u, run (ts.length + 1) s = .next t ∧ complete s = .next u ∧
      t.dig = u.dig ∧ t.dvalid = u.dvalid ∧ t.code = u.code ∧ t.cbin = u.cbin ∧ t.cmode = u.cmode ∧
      t.cvalid = u.cvalid ∧ t.key = u.key ∧ t.msg = u.msg ∧ t.pend = u.pend ∧
      t.busy = false ∧ t.done = true ∧ t.schedule = rest

/-- 42_commands.md R175, 40_hmac.md R117: an HMAC command, from its write through any host transactions to its completion, holds the
tag of the key and message as they were at the write, and has consumed both. -/
def Obligations.HmacFromWriteToTag : Prop :=
  ∀ (s : State) (km tm : Bool) (n : BitVec 7) (ts : List Transaction) (rest : List Event), StateInv s → s.busy = false →
    s.schedule = .host (.write 0x14 (cmdWord 1 km tm n)) :: (ts.map .host ++ .engine :: rest) →
    ∃ t, run (ts.length + 2) s = .next t ∧
      t.dig = hmac s.build km s.key s.msg ∧ t.dvalid = true ∧ t.cvalid = false ∧ t.code = [] ∧
      t.key = [] ∧ t.msg = [] ∧ t.busy = false ∧ t.done = true ∧ t.pend = cmdWord 1 km tm n ∧ t.schedule = rest

/-- 42_commands.md R176, 41_hotp.md R152: an HOTP command, from its write through any host transactions to its completion, holds the
code that the key and message as they were at the write have. -/
def Obligations.HotpFromWriteToCode : Prop :=
  ∀ (s : State) (km tm : Bool) (n : BitVec 7) (ts : List Transaction) (rest : List Event), StateInv s → s.busy = false →
    validDigits s.build.L tm n.toNat = true →
    s.schedule = .host (.write 0x14 (cmdWord 2 km tm n)) :: (ts.map .host ++ .engine :: rest) →
    ∃ t, run (ts.length + 2) s = .next t ∧
      t.dig = hmac s.build km s.key s.msg ∧ t.dvalid = true ∧
      hotpCode s.build.L tm n.toNat (hmac s.build km s.key s.msg) = some (t.code, t.cbin) ∧
      t.cmode = tm ∧ t.cvalid = true ∧ t.code.length = n.toNat ∧
      t.key = [] ∧ t.msg = [] ∧ t.busy = false ∧ t.done = true ∧ t.pend = cmdWord 2 km tm n ∧ t.schedule = rest

/-- 42_commands.md R177: TRUNC with the mode and length of the code held gives that code again, and keeps the tag, the key and the
message. -/
def Obligations.TruncReproducesTheHeldCode : Prop :=
  ∀ (s : State) (km : Bool) (n : BitVec 7) (rest : List Event), StateInv s → s.busy = false → s.cvalid = true →
    n.toNat = s.code.length →
    s.schedule = .host (.write 0x14 (cmdWord 3 km s.cmode n)) :: .engine :: rest →
    ∃ t, run 2 s = .next t ∧ t.code = s.code ∧ t.cbin = s.cbin ∧ t.cmode = s.cmode ∧ t.cvalid = true ∧
      t.dig = s.dig ∧ t.dvalid = true ∧ t.key = s.key ∧ t.msg = s.msg ∧ t.busy = false ∧ t.done = true

/-- 60_exceptions.md R263, 70_reset_and_hazards.md R304: the ERR of a CMD write rejected while busy outlives the completion of the
command that was running, which is not disturbed. -/
def Obligations.BusyErrorOutlivesCompletion : Prop :=
  ∀ (s : State) (w : Word) (rest : List Event), StateInv s → s.busy = true →
    s.schedule = .host (.write 0x14 w) :: .engine :: rest →
    ∃ t u, run 2 s = .next t ∧ complete s = .next u ∧ t = { u with err := 4, schedule := rest } ∧ t.done = true

/-- 70_reset_and_hazards.md R311 and log 2: a running command completes within its schedule's length and one more step, unless the
schedule holds a reset. That an empty schedule gives the engine its turn is the model's choice (log 2). -/
def Obligations.RunningCommandCompletes : Prop :=
  ∀ s : State, StateInv s → s.busy = true → Event.reset ∉ s.schedule →
    ∃ k t, k ≤ s.schedule.length + 1 ∧ run k s = .next t ∧ t.busy = false ∧ t.done = true ∧ t.pend = s.pend

/-! ### Bus transactions -/

/-- 43_bus.md R210, R214, 10_state.md R27 to R30, R33 to R35, R42: what reads of the constant, length, control, write-only and
reserved words return; a read changes nothing but the word the host received. -/
def Obligations.ReadsOfPlainRegisters : Prop :=
  ∀ s : State, StateInv s →
    exec (.rd 0) s = .next { s with rdata := 0x484D4143 } ∧
    exec (.rd 1) s = .next { s with rdata := BitVec.ofNat 32 (s.build.B + s.build.L * 2 ^ 16) } ∧
    exec (.rd 2) s = .next { s with rdata := BitVec.ofNat 32 (s.build.keyMax + s.build.msgMax * 2 ^ 16) } ∧
    exec (.rd 3) s = .next { s with rdata := if s.ie then 1 else 0 } ∧
    exec (.rd 6) s = .next { s with rdata := BitVec.ofNat 32 s.key.length } ∧
    exec (.rd 7) s = .next { s with rdata := BitVec.ofNat 32 s.msg.length } ∧
    exec (.rd 8) s = .next { s with rdata := s.cbin } ∧
    (∀ idx : BitVec 6, idx ∈ [5#6, 9#6, 10#6, 11#6, 12#6, 13#6, 14#6, 15#6] ∨ 48 ≤ idx.toNat →
      exec (.rd idx) s = .next { s with rdata := 0 })

/-- 10_state.md R31 (read side): the fields of STATUS, bit by bit. -/
def Obligations.ReadOfStatus : Prop :=
  ∀ s : State, StateInv s → ∃ v : Word, exec (.rd 4) s = .next { s with rdata := v } ∧
    v.getLsbD 0 = s.busy ∧ v.getLsbD 1 = s.done ∧ v.getLsbD 2 = s.dvalid ∧ v.getLsbD 3 = s.cvalid ∧
    v.getLsbD 4 = (s.ie && s.done) ∧ v.getLsbD 5 = s.ovf ∧ v.getLsbD 6 = s.bsyw ∧ v.getLsbD 7 = false ∧
    v.extractLsb' 8 4 = s.err ∧ v.extractLsb' 12 4 = 0 ∧ (v.extractLsb' 16 7).toNat = s.code.length ∧
    v.getLsbD 23 = s.cmode ∧ v.extractLsb' 24 4 = s.pend.extractLsb' 0 4 ∧ v.extractLsb' 28 4 = 0

/-- 10_state.md R40, R41, 20_memory.md R62: reads of DIGESTi and CODEi, byte by byte, most significant first, 0 beyond the end. -/
def Obligations.ReadsOfDigestAndCode : Prop :=
  ∀ (s : State) (i : Nat), i < 16 →
    (∃ v : Word, exec (.rd (BitVec.ofNat 6 (16 + i))) s = .next { s with rdata := v } ∧
      v.extractLsb' 24 8 = s.dig.getD (4 * i) 0 ∧ v.extractLsb' 16 8 = s.dig.getD (4 * i + 1) 0 ∧
      v.extractLsb' 8 8 = s.dig.getD (4 * i + 2) 0 ∧ v.extractLsb' 0 8 = s.dig.getD (4 * i + 3) 0 ∧
      (s.dig.length ≤ 4 * i → v = 0)) ∧
    (∃ v : Word, exec (.rd (BitVec.ofNat 6 (32 + i))) s = .next { s with rdata := v } ∧
      v.extractLsb' 24 8 = s.code.getD (4 * i) 0 ∧ v.extractLsb' 16 8 = s.code.getD (4 * i + 1) 0 ∧
      v.extractLsb' 8 8 = s.code.getD (4 * i + 2) 0 ∧ v.extractLsb' 0 8 = s.code.getD (4 * i + 3) 0 ∧
      (s.code.length ≤ 4 * i → v = 0))

/-- 20_memory.md R69: a read may be repeated, and so may a write to CTRL or to STATUS: the second changes nothing more. -/
def Obligations.ReadsAndControlWritesAreIdempotent : Prop :=
  (∀ (idx : BitVec 6) (s t : State), exec (.rd idx) s = .next t → exec (.rd idx) t = .next t) ∧
  (∀ (v : Word) (s t : State), exec (.wrCtrl v) s = .next t → exec (.wrCtrl v) t = .next t) ∧
  (∀ (v : Word) (s t : State), exec (.wrStatus v) s = .next t → exec (.wrStatus v) t = .next t)

/-- 43_bus.md R213, R212, 20_memory.md R66: a write to any word but the seven that take one has no effect at all. -/
def Obligations.WritesWithoutEffect : Prop :=
  ∀ (idx : BitVec 6) (v : Word) (s : State), idx ∉ [3#6, 4#6, 5#6, 9#6, 10#6, 11#6, 12#6] →
    decode (.bus (selector true idx) v) = .ok (.wrNoEffect idx v) ∧ exec (.wrNoEffect idx v) s = .next s

/-- 43_bus.md R215, R216: WR.CTRL, busy or not, and the interrupt line after it. -/
def Obligations.WriteOfCtrl : Prop :=
  ∀ (v : Word) (s : State), decode (.bus 0x83 v) = .ok (.wrCtrl v) ∧
    ∃ t, exec (.wrCtrl v) s = .next t ∧ t = { s with ie := v.getLsbD 0 } ∧ irq t = (v.getLsbD 0 && s.done)

/-- 43_bus.md R217, R216: WR.STATUS, busy or not, in its four cases. -/
def Obligations.WriteOfStatus : Prop :=
  ∀ (v : Word) (s : State), decode (.bus 0x84 v) = .ok (.wrStatus v) ∧
    (v.getLsbD 1 = false → v.getLsbD 15 = false → exec (.wrStatus v) s = .next s) ∧
    (v.getLsbD 1 = true → v.getLsbD 15 = false → exec (.wrStatus v) s = .next { s with done := false }) ∧
    (v.getLsbD 1 = false → v.getLsbD 15 = true →
      exec (.wrStatus v) s = .next { s with err := 0, ovf := false, bsyw := false }) ∧
    (v.getLsbD 1 = true → v.getLsbD 15 = true →
      exec (.wrStatus v) s = .next { s with done := false, err := 0, ovf := false, bsyw := false })

/-- 43_bus.md R218, R219: pushes onto the key. -/
def Obligations.WritesOfKeyData : Prop :=
  ∀ (v : Word) (s : State),
    decode (.bus 0x89 v) = .ok (.wrKeyData8 v) ∧ decode (.bus 0x8A v) = .ok (.wrKeyData32 v) ∧
    exec (.wrKeyData8 v) s = .next
      (if s.busy then { s with bsyw := true }
       else if s.key.length + 1 > s.build.keyMax then { s with ovf := true }
       else { s with key := s.key ++ [BitVec.ofNat 8 v.toNat] }) ∧
    exec (.wrKeyData32 v) s = .next
      (if s.busy then { s with bsyw := true }
       else if s.key.length + 4 > s.build.keyMax then { s with ovf := true }
       else { s with key := s.key ++
        [BitVec.ofNat 8 (v.toNat / 2 ^ 24), BitVec.ofNat 8 (v.toNat / 2 ^ 16), BitVec.ofNat 8 (v.toNat / 2 ^ 8),
         BitVec.ofNat 8 v.toNat] })

/-- 43_bus.md R220, R221: pushes onto the message. -/
def Obligations.WritesOfMsgData : Prop :=
  ∀ (v : Word) (s : State),
    decode (.bus 0x8B v) = .ok (.wrMsgData8 v) ∧ decode (.bus 0x8C v) = .ok (.wrMsgData32 v) ∧
    exec (.wrMsgData8 v) s = .next
      (if s.busy then { s with bsyw := true }
       else if s.msg.length + 1 > s.build.msgMax then { s with ovf := true }
       else { s with msg := s.msg ++ [BitVec.ofNat 8 v.toNat] }) ∧
    exec (.wrMsgData32 v) s = .next
      (if s.busy then { s with bsyw := true }
       else if s.msg.length + 4 > s.build.msgMax then { s with ovf := true }
       else { s with msg := s.msg ++
        [BitVec.ofNat 8 (v.toNat / 2 ^ 24), BitVec.ofNat 8 (v.toNat / 2 ^ 16), BitVec.ofNat 8 (v.toNat / 2 ^ 8),
         BitVec.ofNat 8 v.toNat] })

/-- 20_memory.md R63: word `i` of a sequence pushed by 32-bit words is the `i`-th word pushed, for the key and for the message. -/
def Obligations.PushedWordsPackBack : Prop :=
  ∀ (s : State) (ws : List Word), s.build.valid = true → s.busy = false →
    (s.key = [] → 4 * ws.length ≤ s.build.keyMax → s.schedule = ws.map (fun w => .host (.write 0x28 w)) →
      ∃ t, run ws.length s = .next t ∧ t.key.length = 4 * ws.length ∧
        ∀ i < ws.length, packBE t.key i = ws.getD i 0) ∧
    (s.msg = [] → 4 * ws.length ≤ s.build.msgMax → s.schedule = ws.map (fun w => .host (.write 0x30 w)) →
      ∃ t, run ws.length s = .next t ∧ t.msg.length = 4 * ws.length ∧
        ∀ i < ws.length, packBE t.msg i = ws.getD i 0)

/-! ### Whole-machine rules -/

/-- 10_state.md R24: two states that differ only in the bytes of the key and the message, not in their lengths, answer every
transaction alike: the host reads the same word, and what follows differs again only in those bytes. -/
def Obligations.KeyAndMessageAreNeverReadable : Prop :=
  ∀ (i : Instr) (s t : State) (k m : Bytes), k.length = s.key.length → m.length = s.msg.length →
    exec i s = .next t →
    ∃ k' m', exec i { s with key := k, msg := m } = .next { t with key := k', msg := m' } ∧
      k'.length = t.key.length ∧ m'.length = t.msg.length

/-- 60_exceptions.md R270, R271: what makes a transaction raise or lower the interrupt line, and what a completion does to it. -/
def Obligations.InterruptRisesAndFalls : Prop :=
  (∀ (i : Instr) (s t : State), exec i s = .next t → irq s = false → irq t = true →
    (∃ v, i = .wrCtrl v ∧ v.getLsbD 0 = true ∧ s.done = true) ∨
    (i.writesCmd = true ∧ s.busy = false ∧ s.ie = true ∧ t.busy = false)) ∧
  (∀ (i : Instr) (s t : State), exec i s = .next t → irq s = true → irq t = false →
    (∃ v, i = .wrCtrl v ∧ v.getLsbD 0 = false) ∨ (∃ v, i = .wrStatus v ∧ v.getLsbD 1 = true) ∨
    (i.writesCmd = true ∧ s.busy = false ∧ t.busy = true)) ∧
  (∀ s t : State, complete s = .next t → irq t = s.ie)

/-- 60_exceptions.md R268: what clears ERR, OVF and BSYW, and that nothing else does. -/
def Obligations.ErrorStateIsClearedOnlyAsStated : Prop :=
  (∀ (i : Instr) (s t : State), exec i s = .next t →
    ((s.ovf = true ∧ t.ovf = false) ∨ (s.bsyw = true ∧ t.bsyw = false)) →
    (∃ v, i = .wrStatus v ∧ v.getLsbD 15 = true) ∨
    (s.busy = false ∧ t.ovf = false ∧ t.bsyw = false ∧ t.err = 0 ∧
      ((∃ km tm n, i = .zeroize km tm n) ∨ ∃ w km tm n, i = .wrCmd w ∧ decodeCommand w = .zeroize km tm n))) ∧
  (∀ (i : Instr) (s t : State), exec i s = .next t → s.err ≠ 0 → t.err = 0 →
    (∃ v, i = .wrStatus v ∧ v.getLsbD 15 = true) ∨ (i.writesCmd = true ∧ s.busy = false)) ∧
  (∀ s t : State, complete s = .next t → t.err = s.err ∧ t.ovf = s.ovf ∧ t.bsyw = s.bsyw) ∧
  (∀ (v : Word) (s t : State), v.getLsbD 15 = true → exec (.wrStatus v) s = .next t →
    t.err = 0 ∧ t.ovf = false ∧ t.bsyw = false)

/-- 70_reset_and_hazards.md R300, 42_commands.md R172: while a command runs, CODE, CODE_BIN, CLEN and CMODE read 0, and DIGEST too
unless the command is TRUNC. -/
def Obligations.ResultsReadZeroWhileBusy : Prop :=
  ∀ s : State, StateInv s → s.busy = true →
    (∀ idx : BitVec 6, 32 ≤ idx.toNat → idx.toNat < 48 → view s idx = 0) ∧ view s 8 = 0 ∧
    (view s 4).extractLsb' 16 8 = 0 ∧
    ((cmdOp s.pend).toNat ≠ 3 → ∀ idx : BitVec 6, 16 ≤ idx.toNat → idx.toNat < 32 → view s idx = 0)

/-- 10_state.md R23 and Safety.lean: every step keeps the invariant, which holds R23's clauses and those that 42_commands.md R172,
R177, R192 and R193 add to them. -/
def Obligations.EveryStepKeepsTheInvariant : Prop :=
  ∀ s t : State, StateInv s → step s = .next t → StateInv t

/-- 10_state.md R20, R23: the state after reset of every valid build meets the invariant. -/
def Obligations.ResetMeetsTheInvariant : Prop :=
  StateInv State.reset ∧ ∀ b : Build, b.valid = true → StateInv (State.resetOf b)

/-! ### The HMAC datapath -/

/-- 40_hmac.md R111, R112: key normalisation. -/
def Obligations.KeyNormalisation : Prop :=
  ∀ (b : Build) (km : Bool) (k : Bytes),
    (k.length ≤ b.B → normKey b km k = k ++ List.replicate (b.B - k.length) 0) ∧
    (b.B < k.length → normKey b true k = k.take b.B) ∧
    (b.B < k.length → b.L ≤ b.B → normKey b false k = hash b k ++ List.replicate (b.B - b.L) 0) ∧
    (b.B < k.length → b.B < b.L → normKey b false k = (hash b k).take b.B) ∧
    (normKey b km k).length = b.B ∧
    normKey b km (normKey b km k) = normKey b km k

/-- 40_hmac.md R113 to R117, 00_scope.md R6: the two passes over the XORed pads, and the length of the tag. -/
def Obligations.HmacIsTheTwoPassDigest : Prop :=
  ∀ (b : Build) (km : Bool) (k m : Bytes),
    hmac b km k m =
      hash b ((normKey b km k).map (· ^^^ 0x5C) ++ hash b ((normKey b km k).map (· ^^^ 0x36) ++ m)) ∧
    (hmac b km k m).length = b.L

/-- 40_hmac.md R118 (b), (c), (d): when the key mode matters. -/
def Obligations.HmacKeyModes : Prop :=
  ∀ (b : Build) (k m : Bytes),
    (k.length ≤ b.B → hmac b true k m = hmac b false k m) ∧
    hmac b true k m = hmac b false (k.take b.B) m ∧
    (b.B < k.length → b.L ≤ b.B → hmac b false k m = hmac b false (hash b k) m)

/-! ### HOTP -/

/-- 41_hotp.md R141: the digit-count check. That a tag which is not `L` bytes long has a code at all is the model's choice (log 12). -/
def Obligations.DigitCountCheck : Prop :=
  ∀ (b : Build) (tm : Bool) (n : BitVec 7) (d : Bytes), b.valid = true →
    (validDigits b.L tm n.toNat = true ↔ 1 ≤ n.toNat ∧ n.toNat ≤ if tm then b.L else 10) ∧
    (hotpCode b.L tm n.toNat d = none ↔ validDigits b.L tm n.toNat = false) ∧
    (64 < n.toNat → hotpCode b.L tm n.toNat d = none)

/-- 41_hotp.md R142: prefix truncation. -/
def Obligations.PrefixTruncation : Prop :=
  ∀ (L n : Nat) (d : Bytes), d.length = L → 1 ≤ n → n ≤ L →
    ∃ digits, hotpCode L true n d = some (digits, 0) ∧ digits.length = n ∧
      ∀ j < n, (digits.getD j 0).toNat = (d.getD j 0).toNat % 10

/-- 41_hotp.md R145 to R150: RFC dynamic truncation, in arithmetic on unbounded integers. -/
def Obligations.RfcDynamicTruncation : Prop :=
  ∀ (L n : Nat) (d : Bytes), d.length = L → 19 ≤ L → 1 ≤ n → n ≤ 10 →
    ∃ off c digits, off = (d.getD (L - 1) 0).toNat % 16 ∧ off + 3 < L ∧
      c = ((d.getD off 0).toNat * 2 ^ 24 + (d.getD (off + 1) 0).toNat * 2 ^ 16 +
            (d.getD (off + 2) 0).toNat * 2 ^ 8 + (d.getD (off + 3) 0).toNat) % 2 ^ 31 % 10 ^ n ∧
      hotpCode L false n d = some (digits, BitVec.ofNat 32 c) ∧ (BitVec.ofNat 32 c).toNat = c ∧
      digits.length = n ∧ ∀ j < n, (digits.getD j 0).toNat = c / 10 ^ (n - 1 - j) % 10

/-- 41_hotp.md R149, R150: in RFC mode the digits, read as a decimal number, spell CODE_BIN. That a tag which is not `L` bytes long,
or an `L` below 19, has a code at all is the model's choice (log 12). -/
def Obligations.RfcDigitsSpellTheBinaryCode : Prop :=
  ∀ (L n : Nat) (d digits : Bytes) (cb : Word), hotpCode L false n d = some (digits, cb) →
    digits.foldl (fun a x => 10 * a + x.toNat) 0 = cb.toNat

/-- 41_hotp.md R151: an RFC code depends on nothing of the tag but its four window bytes and the low nibble of its last byte. For a
tag that is not `L` bytes long, or an `L` below 19, it rests on the model's choice that a byte beyond the end reads 0 (log 12). -/
def Obligations.RfcCodeDependsOnItsWindowOnly : Prop :=
  ∀ (L n : Nat) (d e : Bytes),
    (d.getD (L - 1) 0).toNat % 16 = (e.getD (L - 1) 0).toNat % 16 →
    (∀ j < 4, d.getD ((d.getD (L - 1) 0).toNat % 16 + j) 0 = e.getD ((d.getD (L - 1) 0).toNat % 16 + j) 0) →
    hotpCode L false n d = hotpCode L false n e

/-- 41_hotp.md R153: every code has exactly `N` digits, each in 0..9, whatever the tag. The second clause, that a shorter RFC code is
the end of the longer one of the same tag, is said by no rule: it is derived from R148 and R149. That a tag which is not `L` bytes long, or an
`L` below 19, has a code at all is the model's choice (log 12). -/
def Obligations.CodeShape : Prop :=
  (∀ (L n : Nat) (tm : Bool) (d digits : Bytes) (cb : Word), hotpCode L tm n d = some (digits, cb) →
    digits.length = n ∧ ∀ x ∈ digits, x.toNat ≤ 9) ∧
  (∀ (L n m : Nat) (d e f : Bytes) (x y : Word), n ≤ m →
    hotpCode L false m d = some (e, x) → hotpCode L false n d = some (f, y) → f = e.drop (m - n))
end

