-- ==== Sys2Proof/Laws/Bytes.lean ====
section
/-!
SUPPORT. Byte sequences, the hash and the two truncations: lengths, single bytes, and what each function can answer.
-/

namespace Sys2Proof.Machine

@[simp] theorem zeros_length (n : Nat) : (zeros n).length = n := by simp [zeros]

@[simp] theorem rep_length (n : Nat) (b : Byte) : (rep n b).length = n := by simp [rep]

@[simp] theorem fit_length (n : Nat) (s : Bytes) : (fit n s).length = n := by simp [fit]

/-- A sequence that has the length already is not changed (40_hmac.md R112). -/
theorem fit_of_length {n : Nat} {s : Bytes} (h : s.length = n) : fit n s = s := by
  subst h
  simp [fit]

/-- A long sequence keeps its first `n` bytes (00_scope.md R12). -/
theorem fit_of_le {n : Nat} {s : Bytes} (h : n ≤ s.length) : fit n s = s.take n := by
  simp [fit, List.take_append_of_le_length h]

/-- A short sequence is padded on the right with zero bytes (00_scope.md R12). -/
theorem fit_of_ge {n : Nat} {s : Bytes} (h : s.length ≤ n) : fit n s = s ++ zeros (n - s.length) := by
  simp [fit, List.take_append, List.take_of_length_le h, zeros]

theorem byteAt_of_length_le {s : Bytes} {j : Nat} (h : s.length ≤ j) : byteAt s j = 0 := by
  simp [byteAt, List.getD_eq_getElem?_getD, List.getElem?_eq_none h]

@[simp] theorem byteAt_nil (j : Nat) : byteAt [] j = 0 := rfl

@[simp] theorem byteAt_zeros (n j : Nat) : byteAt (zeros n) j = 0 := by
  simp only [byteAt, zeros, List.getD_eq_getElem?_getD, List.getElem?_replicate]
  split <;> rfl

theorem byteAt_map_range (n j : Nat) (f : Nat → Byte) (h : j < n) :
    byteAt ((List.range n).map f) j = f j := by
  simp [byteAt, List.getD_eq_getElem?_getD, h]

@[simp] theorem packBE_nil (i : Nat) : packBE [] i = 0 := by simp [packBE, word4]

@[simp] theorem packBE_zeros (n i : Nat) : packBE (zeros n) i = 0 := by
  simp [packBE, word4]

@[simp] theorem portByte_length (v : Word) : (portByte v).length = 1 := rfl

@[simp] theorem portWord_length (v : Word) : (portWord v).length = 4 := rfl

/-- Unpacking a word and packing it again gives the word (20_memory.md R62, R63). -/
theorem packBE_portWord (v : Word) : packBE (portWord v) 0 = v := by
  apply BitVec.eq_of_getLsbD_eq
  intro i hi
  simp only [packBE, word4, byteAt, portWord, List.getD_cons_zero, Nat.mul_zero, Nat.zero_add,
    List.getD_cons_succ, BitVec.getLsbD_append, BitVec.getLsbD_extractLsb']
  split
  · simp_all
  · split
    · simp [show i - 8 < 8 by omega, show 8 + (i - 8) = i by omega]
    · split
      · simp [show i - 8 - 8 < 8 by omega, show 16 + (i - 8 - 8) = i by omega]
      · simp [show i - 8 - 8 - 8 < 8 by omega, show 24 + (i - 8 - 8 - 8) = i by omega]

/-- The output of the hash engine has length `L` for every input (00_scope.md R6). -/
@[simp] theorem hash_length (b : Build) (x : Bytes) : (hash b x).length = b.L := by simp [hash]

/-- The normalised key has length `B` (40_hmac.md R112). -/
@[simp] theorem normKey_length (b : Build) (km : Bool) (k : Bytes) : (normKey b km k).length = b.B := by
  unfold normKey
  split
  · simp
  · split <;> simp

/-- The two branches of the normalisation differ on oversized keys alone (40_hmac.md R111). -/
theorem normKey_of_le {b : Build} {k : Bytes} (km : Bool) (h : k.length ≤ b.B) :
    normKey b km k = fit b.B k := by simp [normKey, h]

theorem normKey_of_gt {b : Build} {k : Bytes} (km : Bool) (h : b.B < k.length) :
    normKey b km k = if km then k.take b.B else fit b.B (hash b k) := by
  simp [normKey, Nat.not_le.mpr h, fit_of_le h.le]

/-- XOR with a constant block is a map over the lanes (40_hmac.md R114). -/
theorem xorBytes_rep {n : Nat} {s : Bytes} (b : Byte) (h : s.length = n) :
    xorBytes s (rep n b) = s.map (· ^^^ b) := by
  subst h
  induction s with
  | nil => rfl
  | cons x s ih => simpa [xorBytes, rep, List.replicate_succ] using ih

@[simp] theorem prefixCode_length (n : Nat) (d : Bytes) : (prefixCode n d).length = n := by
  simp [prefixCode]

@[simp] theorem decimalDigits_length (n c : Nat) : (decimalDigits n c).length = n := by
  simp [decimalDigits]

theorem validDigits_prefix (L n : Nat) : validDigits L true n = true ↔ 1 ≤ n ∧ n ≤ L := by
  simp [validDigits]

theorem validDigits_rfc (L n : Nat) : validDigits L false n = true ↔ 1 ≤ n ∧ n ≤ 10 := by
  simp [validDigits]

theorem validDigits_pos {L n : Nat} {tm : Bool} (h : validDigits L tm n = true) : 1 ≤ n := by
  cases tm
  · exact ((validDigits_rfc L n).mp h).1
  · exact ((validDigits_prefix L n).mp h).1

/-- Everything `hotpCode` can answer with a code (41_hotp.md R152). -/
theorem hotpCode_some {L n : Nat} {tm : Bool} {d digits : Bytes} {cb : Word}
    (h : hotpCode L tm n d = some (digits, cb)) :
    validDigits L tm n = true ∧
      ((tm = true ∧ digits = prefixCode n d ∧ cb = 0) ∨
       (tm = false ∧ digits = decimalDigits n (rfcValue L n d) ∧ cb = BitVec.ofNat 32 (rfcValue L n d))) := by
  unfold hotpCode at h
  split at h
  next hv =>
    refine ⟨hv, ?_⟩
    split at h
    next ht => simp_all
    next ht => simp_all
  next => cases h

/-- A valid digit count always gives a code (42_commands.md R176). -/
theorem hotpCode_of_valid {L n : Nat} {tm : Bool} (d : Bytes) (h : validDigits L tm n = true) :
    ∃ digits cb, hotpCode L tm n d = some (digits, cb) := by
  unfold hotpCode
  rw [if_pos h]
  cases tm <;> simp

/-- The code has exactly the requested number of digits (41_hotp.md R153). -/
theorem hotpCode_length {L n : Nat} {tm : Bool} {d digits : Bytes} {cb : Word}
    (h : hotpCode L tm n d = some (digits, cb)) : digits.length = n := by
  obtain ⟨-, ⟨-, rfl, -⟩ | ⟨-, rfl, -⟩⟩ := hotpCode_some h <;> simp

theorem toNat_ofNat_mod_ten (x : Nat) : (BitVec.ofNat 8 (x % 10)).toNat = x % 10 := by
  rw [BitVec.toNat_ofNat]
  omega

/-- Each digit of a code is in 0..9 (41_hotp.md R153). -/
theorem hotpCode_digits {L n : Nat} {tm : Bool} {d digits : Bytes} {cb : Word}
    (h : hotpCode L tm n d = some (digits, cb)) : ∀ x ∈ digits, x.toNat ≤ 9 := by
  obtain ⟨-, ⟨-, rfl, -⟩ | ⟨-, rfl, -⟩⟩ := hotpCode_some h <;>
    · intro x hx
      obtain ⟨j, -, rfl⟩ := List.mem_map.mp hx
      rw [toNat_ofNat_mod_ten]
      omega

end Sys2Proof.Machine
end

