-- ==== Sys2Proof/Laws/Config.lean ====
section
/-!
SUPPORT. The bounds of a valid build (00_scope.md R7), as propositions.
-/

namespace Sys2Proof

theorem Build.valid_iff (b : Build) :
    b.valid = true ↔ (1 ≤ b.B ∧ b.B ≤ 65535) ∧ (19 ≤ b.L ∧ b.L ≤ 64) ∧ (b.B + 1 ≤ b.keyMax ∧ b.keyMax ≤ 65535) ∧
      (8 ≤ b.msgMax ∧ b.msgMax ≤ 65535) ∧ (b.engine = .sha1 → b.B = 64 ∧ b.L = 20) := by
  simp only [Build.valid, Bool.and_eq_true, decide_eq_true_eq, and_assoc]

theorem Build.reference_valid : Build.reference.valid = true := by decide

end Sys2Proof
end

