-- ==== Sys2Proof/Laws/Fields.lean ====
section
/-!
SUPPORT. Command words and selectors: taking apart what was put together, and the reserved mask (30_encoding.md R81 to R86).
-/

namespace Sys2Proof

/-- A field is 0 exactly when each of its bits is. -/
theorem extractLsb'_eq_zero_iff (w : Word) (p n : Nat) :
    w.extractLsb' p n = 0 ↔ ∀ i < n, w.getLsbD (p + i) = false := by
  constructor
  · intro h i hi
    simpa [hi] using congrArg (fun x => x.getLsbD i) h
  · intro h
    apply BitVec.eq_of_getLsbD_eq
    intro i hi
    simp [hi, h i hi]

/-- The bits of the reserved mask (30_encoding.md R82, R83). -/
theorem reservedMask_bits :
    ∀ i < 32, (0xFF80FCF0#32).getLsbD i = decide ((4 ≤ i ∧ i < 8) ∨ (10 ≤ i ∧ i < 16) ∨ 23 ≤ i) := by
  decide

/-- `RSV` is the mask 0xFF80FCF0 (30_encoding.md R83). -/
theorem cmdReserved_eq_false_iff (w : Word) : cmdReserved w = false ↔ w &&& 0xFF80FCF0#32 = 0 := by
  have fields : cmdReserved w = false ↔
      w.extractLsb' 4 4 = 0 ∧ w.extractLsb' 10 6 = 0 ∧ w.extractLsb' 23 9 = 0 := by
    simp [cmdReserved, and_assoc]
  rw [fields, extractLsb'_eq_zero_iff, extractLsb'_eq_zero_iff, extractLsb'_eq_zero_iff]
  constructor
  · intro ⟨h0, h1, h2⟩
    apply BitVec.eq_of_getLsbD_eq
    intro i hi
    rw [BitVec.getLsbD_and, reservedMask_bits i hi]
    by_cases c0 : 4 ≤ i ∧ i < 8
    · have := h0 (i - 4) (by omega)
      simp_all [show 4 + (i - 4) = i by omega]
    · by_cases c1 : 10 ≤ i ∧ i < 16
      · have := h1 (i - 10) (by omega)
        simp_all [show 10 + (i - 10) = i by omega]
      · by_cases c2 : 23 ≤ i
        · have := h2 (i - 23) (by omega)
          simp_all [show 23 + (i - 23) = i by omega]
        · simp [c0, c1, c2]
  · intro h
    have bit : ∀ i < 32, ((4 ≤ i ∧ i < 8) ∨ (10 ≤ i ∧ i < 16) ∨ 23 ≤ i) → w.getLsbD i = false := by
      intro i hi hc
      have := congrArg (fun x => x.getLsbD i) h
      simpa [reservedMask_bits i hi, hc] using this
    exact ⟨fun i hi => bit _ (by omega) (by omega), fun i hi => bit _ (by omega) (by omega),
      fun i hi => bit _ (by omega) (by omega)⟩

/-- The value of a command word put together from its fields. -/
theorem cmdWord_bits (op : BitVec 4) (km tm : Bool) (n : BitVec 7) (i : Nat) :
    (cmdWord op km tm n).getLsbD i =
      if i < 4 then op.getLsbD i else if i < 8 then false else if i < 9 then km else if i < 10 then tm
      else if i < 16 then false else n.getLsbD (i - 16) := by
  simp only [cmdWord, BitVec.getLsbD_append]
  by_cases h4 : i < 4
  · simp [h4]
  by_cases h8 : i < 8
  · simp [h4, h8, show i - 4 < 4 by omega]
  by_cases h9 : i < 9
  · simp [h4, h8, h9, show ¬ i - 4 < 4 by omega, show i - 4 - 4 = 0 by omega]
  by_cases h10 : i < 10
  · simp [h4, h8, h9, h10, show ¬ i - 4 < 4 by omega, show ¬ i - 4 - 4 < 1 by omega, show i - 4 - 4 - 1 = 0 by omega]
  by_cases h16 : i < 16
  · simp [h4, h8, h9, h10, h16, show ¬ i - 4 < 4 by omega, show ¬ i - 4 - 4 < 1 by omega,
      show ¬ i - 4 - 4 - 1 < 1 by omega, show i - 4 - 4 - 1 - 1 < 6 by omega]
  rw [if_neg h4, if_neg h8, if_neg h9, if_neg h10, if_neg h16, if_neg h4, if_neg (by omega), if_neg (by omega),
    if_neg (by omega), if_neg (by omega), show i - 4 - 4 - 1 - 1 - 6 = i - 16 by omega]
  split
  · rfl
  · simp [BitVec.getLsbD_of_ge n (i - 16) (by omega)]

@[simp] theorem cmdOp_cmdWord (op : BitVec 4) (km tm : Bool) (n : BitVec 7) :
    cmdOp (cmdWord op km tm n) = op := by
  apply BitVec.eq_of_getLsbD_eq
  intro i hi
  simp [cmdOp, cmdWord_bits, hi]

@[simp] theorem cmdKm_cmdWord (op : BitVec 4) (km tm : Bool) (n : BitVec 7) :
    cmdKm (cmdWord op km tm n) = km := by simp only [cmdKm, cmdWord_bits]; rfl

@[simp] theorem cmdTm_cmdWord (op : BitVec 4) (km tm : Bool) (n : BitVec 7) :
    cmdTm (cmdWord op km tm n) = tm := by simp only [cmdTm, cmdWord_bits]; rfl

@[simp] theorem cmdDigits_cmdWord (op : BitVec 4) (km tm : Bool) (n : BitVec 7) :
    cmdDigits (cmdWord op km tm n) = n := by
  apply BitVec.eq_of_getLsbD_eq
  intro i hi
  simp only [cmdDigits, BitVec.getLsbD_extractLsb', hi, decide_true, Bool.true_and, cmdWord_bits]
  rw [if_neg (by omega), if_neg (by omega), if_neg (by omega), if_neg (by omega), if_neg (by omega)]
  congr 1
  omega

@[simp] theorem cmdReserved_cmdWord (op : BitVec 4) (km tm : Bool) (n : BitVec 7) :
    cmdReserved (cmdWord op km tm n) = false := by
  rw [cmdReserved_eq_false_iff]
  apply BitVec.eq_of_getLsbD_eq
  intro i hi
  rw [BitVec.getLsbD_and, reservedMask_bits i hi, cmdWord_bits]
  rw [show (0 : Word).getLsbD i = false from BitVec.getLsbD_zero]
  split
  · simp; omega
  · split
    · simp
    · split
      · simp; omega
      · split
        · simp; omega
        · split
          · simp
          · by_cases c : 23 ≤ i
            · simp [BitVec.getLsbD_of_ge n (i - 16) (by omega)]
            · simp; omega

/-- A word whose reserved bits are 0 is put together from its own fields (30_encoding.md R82, R83). -/
theorem cmdWord_of_fields {w : Word} (h : cmdReserved w = false) :
    cmdWord (cmdOp w) (cmdKm w) (cmdTm w) (cmdDigits w) = w := by
  rw [cmdReserved_eq_false_iff] at h
  apply BitVec.eq_of_getLsbD_eq
  intro i hi
  have bit : ((4 ≤ i ∧ i < 8) ∨ (10 ≤ i ∧ i < 16) ∨ 23 ≤ i) → w.getLsbD i = false := by
    intro hc
    simpa [reservedMask_bits i hi, hc] using congrArg (fun x => x.getLsbD i) h
  rw [cmdWord_bits]
  split
  · simp [cmdOp, *]
  · split
    · exact (bit (by omega)).symm
    · split
      · simp [cmdKm, show i = 8 by omega]
      · split
        · simp [cmdTm, show i = 9 by omega]
        · split
          · exact (bit (by omega)).symm
          · by_cases c : 23 ≤ i
            · rw [bit (by omega), BitVec.getLsbD_of_ge _ _ (by omega)]
            · simp [cmdDigits, show i - 16 < 7 by omega, show 16 + (i - 16) = i by omega]

/-- The opcode of a word, as a number, names its row (30_encoding.md R85). -/
theorem cmdOp_toNat_lt (w : Word) : (cmdOp w).toNat < 16 := (cmdOp w).isLt

/-- Everything the command decoder can answer (30_encoding.md R90). -/
theorem decodeCommand_cases (w : Word) :
    (IllegalWord w ∧ decodeCommand w = .illegal w) ∨
    (cmdReserved w = false ∧
      (((cmdOp w).toNat = 0 ∧ decodeCommand w = .nop (cmdKm w) (cmdTm w) (cmdDigits w)) ∨
       ((cmdOp w).toNat = 1 ∧ decodeCommand w = .hmac (cmdKm w) (cmdTm w) (cmdDigits w)) ∨
       ((cmdOp w).toNat = 2 ∧ decodeCommand w = .hotp (cmdKm w) (cmdTm w) (cmdDigits w)) ∨
       ((cmdOp w).toNat = 3 ∧ decodeCommand w = .trunc (cmdKm w) (cmdTm w) (cmdDigits w)) ∨
       ((cmdOp w).toNat = 4 ∧ decodeCommand w = .clrkey (cmdKm w) (cmdTm w) (cmdDigits w)) ∨
       ((cmdOp w).toNat = 5 ∧ decodeCommand w = .clrmsg (cmdKm w) (cmdTm w) (cmdDigits w)) ∨
       ((cmdOp w).toNat = 6 ∧ decodeCommand w = .zeroize (cmdKm w) (cmdTm w) (cmdDigits w)))) := by
  cases hr : cmdReserved w
  · simp only [decodeCommand, hr, IllegalWord]
    generalize (cmdOp w).toNat = op
    match op with
    | 0 | 1 | 2 | 3 | 4 | 5 | 6 => simp
    | k + 7 => simp
  · simp [decodeCommand, hr, IllegalWord]

theorem selector_bit7 (write : Bool) (idx : BitVec 6) : (selector write idx).getLsbD 7 = write := by
  revert write idx
  decide

theorem selector_bit6 (write : Bool) (idx : BitVec 6) : (selector write idx).getLsbD 6 = false := by
  revert write idx
  decide

theorem selector_idx (write : Bool) (idx : BitVec 6) : (selector write idx).extractLsb' 0 6 = idx := by
  revert write idx
  decide

/-- The decoder reads the selector of a read as RD (30_encoding.md R90). -/
theorem decode_read (idx : BitVec 6) (v : Word) : decode (.bus (selector false idx) v) = .ok (.rd idx) := by
  simp only [decode, decodeSelector, selector_bit7, selector_idx, Bool.false_eq_true, if_false]

/-- The decoder reads the selector of a write as the row of its word index (30_encoding.md R90). -/
theorem decode_write (idx : BitVec 6) (v : Word) :
    decode (.bus (selector true idx) v) = .ok (decodeWrite idx v) := by
  simp only [decode, decodeSelector, selector_bit7, selector_bit6, selector_idx, Bool.false_eq_true, if_false, if_true]

end Sys2Proof
end

