-- ==== Sys2Proof/Laws/State.lean ====
section
/-!
SUPPORT. One lemma per field per named update of the state, true by definition, so that no proof unfolds a record update.
-/

namespace Sys2Proof.Machine

@[simp] theorem rejectBusy_key (s : State) : (rejectBusy s).key = s.key := rfl
@[simp] theorem rejectBusy_msg (s : State) : (rejectBusy s).msg = s.msg := rfl
@[simp] theorem rejectBusy_dig (s : State) : (rejectBusy s).dig = s.dig := rfl
@[simp] theorem rejectBusy_dvalid (s : State) : (rejectBusy s).dvalid = s.dvalid := rfl
@[simp] theorem rejectBusy_code (s : State) : (rejectBusy s).code = s.code := rfl
@[simp] theorem rejectBusy_cbin (s : State) : (rejectBusy s).cbin = s.cbin := rfl
@[simp] theorem rejectBusy_cmode (s : State) : (rejectBusy s).cmode = s.cmode := rfl
@[simp] theorem rejectBusy_cvalid (s : State) : (rejectBusy s).cvalid = s.cvalid := rfl
@[simp] theorem rejectBusy_busy (s : State) : (rejectBusy s).busy = s.busy := rfl
@[simp] theorem rejectBusy_pend (s : State) : (rejectBusy s).pend = s.pend := rfl
@[simp] theorem rejectBusy_done (s : State) : (rejectBusy s).done = s.done := rfl
@[simp] theorem rejectBusy_err (s : State) : (rejectBusy s).err = 4 := rfl
@[simp] theorem rejectBusy_ovf (s : State) : (rejectBusy s).ovf = s.ovf := rfl
@[simp] theorem rejectBusy_bsyw (s : State) : (rejectBusy s).bsyw = s.bsyw := rfl
@[simp] theorem rejectBusy_ie (s : State) : (rejectBusy s).ie = s.ie := rfl
@[simp] theorem rejectBusy_build (s : State) : (rejectBusy s).build = s.build := rfl
@[simp] theorem rejectBusy_schedule (s : State) : (rejectBusy s).schedule = s.schedule := rfl
@[simp] theorem rejectBusy_rdata (s : State) : (rejectBusy s).rdata = s.rdata := rfl

@[simp] theorem failCmd_key (e : ErrCode) (s : State) : (failCmd e s).key = s.key := rfl
@[simp] theorem failCmd_msg (e : ErrCode) (s : State) : (failCmd e s).msg = s.msg := rfl
@[simp] theorem failCmd_dig (e : ErrCode) (s : State) : (failCmd e s).dig = s.dig := rfl
@[simp] theorem failCmd_dvalid (e : ErrCode) (s : State) : (failCmd e s).dvalid = s.dvalid := rfl
@[simp] theorem failCmd_code (e : ErrCode) (s : State) : (failCmd e s).code = s.code := rfl
@[simp] theorem failCmd_cbin (e : ErrCode) (s : State) : (failCmd e s).cbin = s.cbin := rfl
@[simp] theorem failCmd_cmode (e : ErrCode) (s : State) : (failCmd e s).cmode = s.cmode := rfl
@[simp] theorem failCmd_cvalid (e : ErrCode) (s : State) : (failCmd e s).cvalid = s.cvalid := rfl
@[simp] theorem failCmd_busy (e : ErrCode) (s : State) : (failCmd e s).busy = s.busy := rfl
@[simp] theorem failCmd_pend (e : ErrCode) (s : State) : (failCmd e s).pend = s.pend := rfl
@[simp] theorem failCmd_done (e : ErrCode) (s : State) : (failCmd e s).done = true := rfl
@[simp] theorem failCmd_err (e : ErrCode) (s : State) : (failCmd e s).err = errBits e := rfl
@[simp] theorem failCmd_ovf (e : ErrCode) (s : State) : (failCmd e s).ovf = s.ovf := rfl
@[simp] theorem failCmd_bsyw (e : ErrCode) (s : State) : (failCmd e s).bsyw = s.bsyw := rfl
@[simp] theorem failCmd_ie (e : ErrCode) (s : State) : (failCmd e s).ie = s.ie := rfl
@[simp] theorem failCmd_build (e : ErrCode) (s : State) : (failCmd e s).build = s.build := rfl
@[simp] theorem failCmd_schedule (e : ErrCode) (s : State) : (failCmd e s).schedule = s.schedule := rfl
@[simp] theorem failCmd_rdata (e : ErrCode) (s : State) : (failCmd e s).rdata = s.rdata := rfl

@[simp] theorem acceptImmediate_key (w : Word) (s : State) : (acceptImmediate w s).key = s.key := rfl
@[simp] theorem acceptImmediate_msg (w : Word) (s : State) : (acceptImmediate w s).msg = s.msg := rfl
@[simp] theorem acceptImmediate_dig (w : Word) (s : State) : (acceptImmediate w s).dig = s.dig := rfl
@[simp] theorem acceptImmediate_dvalid (w : Word) (s : State) : (acceptImmediate w s).dvalid = s.dvalid := rfl
@[simp] theorem acceptImmediate_code (w : Word) (s : State) : (acceptImmediate w s).code = s.code := rfl
@[simp] theorem acceptImmediate_cbin (w : Word) (s : State) : (acceptImmediate w s).cbin = s.cbin := rfl
@[simp] theorem acceptImmediate_cmode (w : Word) (s : State) : (acceptImmediate w s).cmode = s.cmode := rfl
@[simp] theorem acceptImmediate_cvalid (w : Word) (s : State) : (acceptImmediate w s).cvalid = s.cvalid := rfl
@[simp] theorem acceptImmediate_busy (w : Word) (s : State) : (acceptImmediate w s).busy = s.busy := rfl
@[simp] theorem acceptImmediate_pend (w : Word) (s : State) : (acceptImmediate w s).pend = w := rfl
@[simp] theorem acceptImmediate_done (w : Word) (s : State) : (acceptImmediate w s).done = true := rfl
@[simp] theorem acceptImmediate_err (w : Word) (s : State) : (acceptImmediate w s).err = 0 := rfl
@[simp] theorem acceptImmediate_ovf (w : Word) (s : State) : (acceptImmediate w s).ovf = s.ovf := rfl
@[simp] theorem acceptImmediate_bsyw (w : Word) (s : State) : (acceptImmediate w s).bsyw = s.bsyw := rfl
@[simp] theorem acceptImmediate_ie (w : Word) (s : State) : (acceptImmediate w s).ie = s.ie := rfl
@[simp] theorem acceptImmediate_build (w : Word) (s : State) : (acceptImmediate w s).build = s.build := rfl
@[simp] theorem acceptImmediate_schedule (w : Word) (s : State) : (acceptImmediate w s).schedule = s.schedule := rfl
@[simp] theorem acceptImmediate_rdata (w : Word) (s : State) : (acceptImmediate w s).rdata = s.rdata := rfl

@[simp] theorem acceptBusy_key (w : Word) (s : State) : (acceptBusy w s).key = s.key := rfl
@[simp] theorem acceptBusy_msg (w : Word) (s : State) : (acceptBusy w s).msg = s.msg := rfl
@[simp] theorem acceptBusy_dig (w : Word) (s : State) : (acceptBusy w s).dig = s.dig := rfl
@[simp] theorem acceptBusy_dvalid (w : Word) (s : State) : (acceptBusy w s).dvalid = s.dvalid := rfl
@[simp] theorem acceptBusy_code (w : Word) (s : State) : (acceptBusy w s).code = [] := rfl
@[simp] theorem acceptBusy_cbin (w : Word) (s : State) : (acceptBusy w s).cbin = 0 := rfl
@[simp] theorem acceptBusy_cmode (w : Word) (s : State) : (acceptBusy w s).cmode = false := rfl
@[simp] theorem acceptBusy_cvalid (w : Word) (s : State) : (acceptBusy w s).cvalid = false := rfl
@[simp] theorem acceptBusy_busy (w : Word) (s : State) : (acceptBusy w s).busy = true := rfl
@[simp] theorem acceptBusy_pend (w : Word) (s : State) : (acceptBusy w s).pend = w := rfl
@[simp] theorem acceptBusy_done (w : Word) (s : State) : (acceptBusy w s).done = false := rfl
@[simp] theorem acceptBusy_err (w : Word) (s : State) : (acceptBusy w s).err = 0 := rfl
@[simp] theorem acceptBusy_ovf (w : Word) (s : State) : (acceptBusy w s).ovf = s.ovf := rfl
@[simp] theorem acceptBusy_bsyw (w : Word) (s : State) : (acceptBusy w s).bsyw = s.bsyw := rfl
@[simp] theorem acceptBusy_ie (w : Word) (s : State) : (acceptBusy w s).ie = s.ie := rfl
@[simp] theorem acceptBusy_build (w : Word) (s : State) : (acceptBusy w s).build = s.build := rfl
@[simp] theorem acceptBusy_schedule (w : Word) (s : State) : (acceptBusy w s).schedule = s.schedule := rfl
@[simp] theorem acceptBusy_rdata (w : Word) (s : State) : (acceptBusy w s).rdata = s.rdata := rfl

@[simp] theorem dropTag_key (s : State) : (dropTag s).key = s.key := rfl
@[simp] theorem dropTag_msg (s : State) : (dropTag s).msg = s.msg := rfl
@[simp] theorem dropTag_dig (s : State) : (dropTag s).dig = zeros s.build.L := rfl
@[simp] theorem dropTag_dvalid (s : State) : (dropTag s).dvalid = false := rfl
@[simp] theorem dropTag_code (s : State) : (dropTag s).code = s.code := rfl
@[simp] theorem dropTag_cbin (s : State) : (dropTag s).cbin = s.cbin := rfl
@[simp] theorem dropTag_cmode (s : State) : (dropTag s).cmode = s.cmode := rfl
@[simp] theorem dropTag_cvalid (s : State) : (dropTag s).cvalid = s.cvalid := rfl
@[simp] theorem dropTag_busy (s : State) : (dropTag s).busy = s.busy := rfl
@[simp] theorem dropTag_pend (s : State) : (dropTag s).pend = s.pend := rfl
@[simp] theorem dropTag_done (s : State) : (dropTag s).done = s.done := rfl
@[simp] theorem dropTag_err (s : State) : (dropTag s).err = s.err := rfl
@[simp] theorem dropTag_ovf (s : State) : (dropTag s).ovf = s.ovf := rfl
@[simp] theorem dropTag_bsyw (s : State) : (dropTag s).bsyw = s.bsyw := rfl
@[simp] theorem dropTag_ie (s : State) : (dropTag s).ie = s.ie := rfl
@[simp] theorem dropTag_build (s : State) : (dropTag s).build = s.build := rfl
@[simp] theorem dropTag_schedule (s : State) : (dropTag s).schedule = s.schedule := rfl
@[simp] theorem dropTag_rdata (s : State) : (dropTag s).rdata = s.rdata := rfl

@[simp] theorem finish_key (s : State) : (finish s).key = s.key := rfl
@[simp] theorem finish_msg (s : State) : (finish s).msg = s.msg := rfl
@[simp] theorem finish_dig (s : State) : (finish s).dig = s.dig := rfl
@[simp] theorem finish_dvalid (s : State) : (finish s).dvalid = s.dvalid := rfl
@[simp] theorem finish_code (s : State) : (finish s).code = s.code := rfl
@[simp] theorem finish_cbin (s : State) : (finish s).cbin = s.cbin := rfl
@[simp] theorem finish_cmode (s : State) : (finish s).cmode = s.cmode := rfl
@[simp] theorem finish_cvalid (s : State) : (finish s).cvalid = s.cvalid := rfl
@[simp] theorem finish_busy (s : State) : (finish s).busy = false := rfl
@[simp] theorem finish_pend (s : State) : (finish s).pend = s.pend := rfl
@[simp] theorem finish_done (s : State) : (finish s).done = true := rfl
@[simp] theorem finish_err (s : State) : (finish s).err = s.err := rfl
@[simp] theorem finish_ovf (s : State) : (finish s).ovf = s.ovf := rfl
@[simp] theorem finish_bsyw (s : State) : (finish s).bsyw = s.bsyw := rfl
@[simp] theorem finish_ie (s : State) : (finish s).ie = s.ie := rfl
@[simp] theorem finish_build (s : State) : (finish s).build = s.build := rfl
@[simp] theorem finish_schedule (s : State) : (finish s).schedule = s.schedule := rfl
@[simp] theorem finish_rdata (s : State) : (finish s).rdata = s.rdata := rfl

@[simp] theorem resetBlock_key (s : State) : (resetBlock s).key = [] := rfl
@[simp] theorem resetBlock_msg (s : State) : (resetBlock s).msg = [] := rfl
@[simp] theorem resetBlock_dig (s : State) : (resetBlock s).dig = zeros s.build.L := rfl
@[simp] theorem resetBlock_dvalid (s : State) : (resetBlock s).dvalid = false := rfl
@[simp] theorem resetBlock_code (s : State) : (resetBlock s).code = [] := rfl
@[simp] theorem resetBlock_cbin (s : State) : (resetBlock s).cbin = 0 := rfl
@[simp] theorem resetBlock_cmode (s : State) : (resetBlock s).cmode = false := rfl
@[simp] theorem resetBlock_cvalid (s : State) : (resetBlock s).cvalid = false := rfl
@[simp] theorem resetBlock_busy (s : State) : (resetBlock s).busy = false := rfl
@[simp] theorem resetBlock_pend (s : State) : (resetBlock s).pend = 0 := rfl
@[simp] theorem resetBlock_done (s : State) : (resetBlock s).done = false := rfl
@[simp] theorem resetBlock_err (s : State) : (resetBlock s).err = 0 := rfl
@[simp] theorem resetBlock_ovf (s : State) : (resetBlock s).ovf = false := rfl
@[simp] theorem resetBlock_bsyw (s : State) : (resetBlock s).bsyw = false := rfl
@[simp] theorem resetBlock_ie (s : State) : (resetBlock s).ie = false := rfl
@[simp] theorem resetBlock_build (s : State) : (resetBlock s).build = s.build := rfl
@[simp] theorem resetBlock_schedule (s : State) : (resetBlock s).schedule = s.schedule := rfl
@[simp] theorem resetBlock_rdata (s : State) : (resetBlock s).rdata = s.rdata := rfl

@[simp] theorem zeroizeState_key (s : State) : (zeroizeState s).key = [] := rfl
@[simp] theorem zeroizeState_msg (s : State) : (zeroizeState s).msg = [] := rfl
@[simp] theorem zeroizeState_dig (s : State) : (zeroizeState s).dig = zeros s.build.L := rfl
@[simp] theorem zeroizeState_dvalid (s : State) : (zeroizeState s).dvalid = false := rfl
@[simp] theorem zeroizeState_code (s : State) : (zeroizeState s).code = [] := rfl
@[simp] theorem zeroizeState_cbin (s : State) : (zeroizeState s).cbin = 0 := rfl
@[simp] theorem zeroizeState_cmode (s : State) : (zeroizeState s).cmode = false := rfl
@[simp] theorem zeroizeState_cvalid (s : State) : (zeroizeState s).cvalid = false := rfl
@[simp] theorem zeroizeState_busy (s : State) : (zeroizeState s).busy = s.busy := rfl
@[simp] theorem zeroizeState_pend (s : State) : (zeroizeState s).pend = s.pend := rfl
@[simp] theorem zeroizeState_done (s : State) : (zeroizeState s).done = s.done := rfl
@[simp] theorem zeroizeState_err (s : State) : (zeroizeState s).err = s.err := rfl
@[simp] theorem zeroizeState_ovf (s : State) : (zeroizeState s).ovf = false := rfl
@[simp] theorem zeroizeState_bsyw (s : State) : (zeroizeState s).bsyw = false := rfl
@[simp] theorem zeroizeState_ie (s : State) : (zeroizeState s).ie = s.ie := rfl
@[simp] theorem zeroizeState_build (s : State) : (zeroizeState s).build = s.build := rfl
@[simp] theorem zeroizeState_schedule (s : State) : (zeroizeState s).schedule = s.schedule := rfl
@[simp] theorem zeroizeState_rdata (s : State) : (zeroizeState s).rdata = s.rdata := rfl

@[simp] theorem writeStatus_key (v : Word) (s : State) : (writeStatus v s).key = s.key := rfl
@[simp] theorem writeStatus_msg (v : Word) (s : State) : (writeStatus v s).msg = s.msg := rfl
@[simp] theorem writeStatus_dig (v : Word) (s : State) : (writeStatus v s).dig = s.dig := rfl
@[simp] theorem writeStatus_dvalid (v : Word) (s : State) : (writeStatus v s).dvalid = s.dvalid := rfl
@[simp] theorem writeStatus_code (v : Word) (s : State) : (writeStatus v s).code = s.code := rfl
@[simp] theorem writeStatus_cbin (v : Word) (s : State) : (writeStatus v s).cbin = s.cbin := rfl
@[simp] theorem writeStatus_cmode (v : Word) (s : State) : (writeStatus v s).cmode = s.cmode := rfl
@[simp] theorem writeStatus_cvalid (v : Word) (s : State) : (writeStatus v s).cvalid = s.cvalid := rfl
@[simp] theorem writeStatus_busy (v : Word) (s : State) : (writeStatus v s).busy = s.busy := rfl
@[simp] theorem writeStatus_pend (v : Word) (s : State) : (writeStatus v s).pend = s.pend := rfl
@[simp] theorem writeStatus_done (v : Word) (s : State) :
    (writeStatus v s).done = if v.getLsbD 1 then false else s.done := rfl
@[simp] theorem writeStatus_err (v : Word) (s : State) :
    (writeStatus v s).err = if v.getLsbD 15 then 0 else s.err := rfl
@[simp] theorem writeStatus_ovf (v : Word) (s : State) :
    (writeStatus v s).ovf = if v.getLsbD 15 then false else s.ovf := rfl
@[simp] theorem writeStatus_bsyw (v : Word) (s : State) :
    (writeStatus v s).bsyw = if v.getLsbD 15 then false else s.bsyw := rfl
@[simp] theorem writeStatus_ie (v : Word) (s : State) : (writeStatus v s).ie = s.ie := rfl
@[simp] theorem writeStatus_build (v : Word) (s : State) : (writeStatus v s).build = s.build := rfl
@[simp] theorem writeStatus_schedule (v : Word) (s : State) : (writeStatus v s).schedule = s.schedule := rfl
@[simp] theorem writeStatus_rdata (v : Word) (s : State) : (writeStatus v s).rdata = s.rdata := rfl

end Sys2Proof.Machine
end

