-- ==== Sys2Proof/Laws/Ops.lean ====
section
/-!
SUPPORT. What each shared operation can do, said once: the BUSY check, the pushes, the command write, the completions, the engine's
turn and the placing of an instruction.
-/

namespace Sys2Proof.Machine

/-- A command write always answers a next state (60_exceptions.md R260). -/
theorem unlessBusy_eq (s t : State) : unlessBusy s t = .next (if s.busy then rejectBusy s else t) := by
  unfold unlessBusy
  split <;> rfl

theorem unlessBusy_of_busy {s : State} (t : State) (h : s.busy = true) :
    unlessBusy s t = .next { s with err := 4 } := by
  rw [unlessBusy, if_pos h]
  rfl

theorem unlessBusy_of_idle {s : State} (t : State) (h : s.busy = false) : unlessBusy s t = .next t := by
  rw [unlessBusy, h]
  rfl

/-- Everything a key push can do (43_bus.md R218, R219). -/
theorem pushKey_cases (bs : Bytes) (s : State) :
    (s.busy = true ∧ pushKey bs s = { s with bsyw := true }) ∨
    (s.busy = false ∧ s.build.keyMax < s.key.length + bs.length ∧ pushKey bs s = { s with ovf := true }) ∨
    (s.busy = false ∧ s.key.length + bs.length ≤ s.build.keyMax ∧ pushKey bs s = { s with key := s.key ++ bs }) := by
  unfold pushKey
  cases s.busy
  · by_cases h : s.key.length + bs.length > s.build.keyMax
    · exact .inr (.inl ⟨rfl, h, by simp [h]⟩)
    · exact .inr (.inr ⟨rfl, Nat.not_lt.mp h, by simp [h]⟩)
  · exact .inl ⟨rfl, by simp⟩

/-- Everything a message push can do (43_bus.md R220, R221). -/
theorem pushMsg_cases (bs : Bytes) (s : State) :
    (s.busy = true ∧ pushMsg bs s = { s with bsyw := true }) ∨
    (s.busy = false ∧ s.build.msgMax < s.msg.length + bs.length ∧ pushMsg bs s = { s with ovf := true }) ∨
    (s.busy = false ∧ s.msg.length + bs.length ≤ s.build.msgMax ∧ pushMsg bs s = { s with msg := s.msg ++ bs }) := by
  unfold pushMsg
  cases s.busy
  · by_cases h : s.msg.length + bs.length > s.build.msgMax
    · exact .inr (.inl ⟨rfl, h, by simp [h]⟩)
    · exact .inr (.inr ⟨rfl, Nat.not_lt.mp h, by simp [h]⟩)
  · exact .inl ⟨rfl, by simp⟩

/-- A CMD write is the command its word decodes to (43_bus.md R222, 30_encoding.md R90). -/
theorem exec_wrCmd (w : Word) (s : State) : exec (.wrCmd w) s = exec (decodeCommand w) s := by
  simp only [exec, execWrCmd, decodeCommand]
  cases cmdReserved w
  · generalize (cmdOp w).toNat = op
    match op with
    | 0 | 1 | 2 | 3 | 4 | 5 | 6 => rfl
    | k + 7 => rfl
  · rfl

/-- Everything a completion can do (42_commands.md R190 to R193): it answers a next state or is the fault of log 10. -/
theorem complete_next {s t : State} (h : complete s = .next t) :
    ((cmdOp s.pend).toNat = 1 ∧
      t = finish { s with dig := hmac s.build (cmdKm s.pend) s.key s.msg, dvalid := true, key := [], msg := [] }) ∨
    ((cmdOp s.pend).toNat = 2 ∧ ∃ digits cb,
      hotpCode s.build.L (cmdTm s.pend) (cmdDigits s.pend).toNat
        (hmac s.build (cmdKm s.pend) s.key s.msg) = some (digits, cb) ∧
      t = finish
        { s with
          dig := hmac s.build (cmdKm s.pend) s.key s.msg, dvalid := true, code := digits, cbin := cb
          cmode := cmdTm s.pend, cvalid := true, key := [], msg := [] }) ∨
    ((cmdOp s.pend).toNat = 3 ∧ ∃ digits cb,
      hotpCode s.build.L (cmdTm s.pend) (cmdDigits s.pend).toNat s.dig = some (digits, cb) ∧
      t = finish { s with code := digits, cbin := cb, cmode := cmdTm s.pend, cvalid := true }) := by
  unfold complete at h
  split at h
  next hop => exact .inl ⟨hop, by cases h; rfl⟩
  next hop =>
    simp only [completeHotp] at h
    split at h
    next digits cb hc => exact .inr (.inl ⟨hop, digits, cb, hc, by cases h; rfl⟩)
    next => cases h
  next hop =>
    simp only [completeTrunc] at h
    split at h
    next digits cb hc => exact .inr (.inr ⟨hop, digits, cb, hc, by cases h; rfl⟩)
    next => cases h
  next => cases h

/-- Everything the engine's turn can do (42_commands.md R190, log 3). -/
theorem engineTurn_next {s t : State} (h : engineTurn s = .next t) :
    (s.busy = false ∧ t = s) ∨ (s.busy = true ∧ complete s = .next t) := by
  unfold engineTurn at h
  cases hb : s.busy
  · rw [hb] at h
    exact .inl ⟨rfl, by cases h; rfl⟩
  · rw [hb] at h
    exact .inr ⟨rfl, h⟩

/-- The length of the tag a completion writes (40_hmac.md R117). -/
theorem outerPass_length (b : Build) (k' inner : Bytes) : (outerPass b k' inner).length = b.L := by
  simp [outerPass]

/-- A step is the first event of the schedule (20_memory.md R71). -/
theorem step_of_event {s : State} {e : Event} {rest : List Event} (hv : s.build.valid = true) (hs : s.schedule = e :: rest) :
    step s = runEvent e { s with schedule := rest } := by
  unfold step
  rw [if_pos hv, hs]

/-- With nothing scheduled a step is the engine's turn (log 2). -/
theorem step_of_nil {s : State} (hv : s.build.valid = true) (hs : s.schedule = []) : step s = engineTurn s := by
  unfold step
  rw [if_pos hv, hs]

/-- Everything a step that answers a next state was (20_memory.md R71, 00_scope.md R7). -/
theorem step_next {s t : State} (h : step s = .next t) :
    s.build.valid = true ∧
      ((s.schedule = [] ∧ engineTurn s = .next t) ∨
       ∃ e rest, s.schedule = e :: rest ∧ runEvent e { s with schedule := rest } = .next t) := by
  unfold step at h
  split at h
  next hv =>
    refine ⟨hv, ?_⟩
    cases hs : s.schedule with
    | nil => rw [hs] at h; exact .inl ⟨rfl, h⟩
    | cons e rest => rw [hs] at h; exact .inr ⟨e, rest, rfl, h⟩
  next => cases h

/-- `withFetchWord` places exactly the instruction a command word decodes to: the next step of a valid build runs it. -/
theorem step_withFetchWord_command (s : State) (w : Nat) (hv : s.build.valid = true) :
    step (s.withFetchWord 32 w) = exec (decodeCommand (BitVec.ofNat 32 w)) s := by
  have place : s.withFetchWord 32 w =
      { s with schedule := .host (.write 0x14 (BitVec.ofNat 32 w)) :: s.schedule } := rfl
  rw [place, ← exec_wrCmd]
  exact step_of_event (s := { s with schedule := .host (.write 0x14 (BitVec.ofNat 32 w)) :: s.schedule }) hv rfl

end Sys2Proof.Machine
end

