-- ==== Sys2Proof/Laws/Exec.lean ====
section
/-!
SUPPORT. What an instruction can do, said once: the named effects of `exec`, and that it has no others. A write to CMD is read as the
command its word decodes to.
-/

namespace Sys2Proof

/-- The command row a CMD write carries (30_encoding.md R90); any other instruction is itself. -/
def Instr.command : Instr → Instr
  | .wrCmd w => decodeCommand w
  | i => i

/-- A command word never decodes to a bus transaction, and is always a CMD write. -/
theorem decodeCommand_command (w : Word) :
    (decodeCommand w).command = decodeCommand w ∧ (decodeCommand w).writesCmd = true := by
  rcases decodeCommand_cases w with ⟨-, h⟩ |
    ⟨-, ⟨-, h⟩ | ⟨-, h⟩ | ⟨-, h⟩ | ⟨-, h⟩ | ⟨-, h⟩ | ⟨-, h⟩ | ⟨-, h⟩⟩ <;> rw [h] <;> exact ⟨rfl, rfl⟩

theorem decodeCommand_ne_wrCmd (w v : Word) : decodeCommand w ≠ .wrCmd v := by
  rcases decodeCommand_cases w with ⟨-, h⟩ |
    ⟨-, ⟨-, h⟩ | ⟨-, h⟩ | ⟨-, h⟩ | ⟨-, h⟩ | ⟨-, h⟩ | ⟨-, h⟩ | ⟨-, h⟩⟩ <;> rw [h] <;> exact Instr.noConfusion

theorem command_writesCmd (i : Instr) : i.command.writesCmd = i.writesCmd := by
  cases i with
  | wrCmd w => exact (decodeCommand_command w).2
  | _ => rfl

end Sys2Proof

namespace Sys2Proof.Machine

theorem exec_command (i : Instr) (s : State) : exec i.command s = exec i s := by
  cases i with
  | wrCmd w => exact (exec_wrCmd w s).symm
  | _ => rfl

/-- The effects an instruction can have on `s`, by name. -/
inductive Effect (s : State) : Instr → State → Prop
  | busy {i : Instr} (hb : s.busy = true) (hi : i.writesCmd = true) : Effect s i (rejectBusy s)
  | fail {i : Instr} (e : ErrCode) (hb : s.busy = false) (hi : i.writesCmd = true)
      (he : e = .illegalCmd ∨ e = .invalidDigits ∨ e = .noDigest) : Effect s i (failCmd e s)
  | nop (km tm : Bool) (n : BitVec 7) (hb : s.busy = false) :
      Effect s (.nop km tm n) (acceptImmediate (cmdWord 0 km tm n) s)
  | hmac (km tm : Bool) (n : BitVec 7) (hb : s.busy = false) :
      Effect s (.hmac km tm n) (acceptBusy (cmdWord 1 km tm n) (dropTag s))
  | hotp (km tm : Bool) (n : BitVec 7) (hb : s.busy = false) (hv : validDigits s.build.L tm n.toNat = true) :
      Effect s (.hotp km tm n) (acceptBusy (cmdWord 2 km tm n) (dropTag s))
  | trunc (km tm : Bool) (n : BitVec 7) (hb : s.busy = false) (hv : validDigits s.build.L tm n.toNat = true)
      (hd : s.dvalid = true) : Effect s (.trunc km tm n) (acceptBusy (cmdWord 3 km tm n) s)
  | clrkey (km tm : Bool) (n : BitVec 7) (hb : s.busy = false) :
      Effect s (.clrkey km tm n) (acceptImmediate (cmdWord 4 km tm n) { s with key := [] })
  | clrmsg (km tm : Bool) (n : BitVec 7) (hb : s.busy = false) :
      Effect s (.clrmsg km tm n) (acceptImmediate (cmdWord 5 km tm n) { s with msg := [] })
  | zeroize (km tm : Bool) (n : BitVec 7) (hb : s.busy = false) :
      Effect s (.zeroize km tm n) (acceptImmediate (cmdWord 6 km tm n) (zeroizeState s))
  | rd (idx : BitVec 6) : Effect s (.rd idx) { s with rdata := view s idx }
  | wrCtrl (v : Word) : Effect s (.wrCtrl v) { s with ie := v.getLsbD 0 }
  | wrStatus (v : Word) : Effect s (.wrStatus v) (writeStatus v s)
  | wrKeyData8 (v : Word) : Effect s (.wrKeyData8 v) (pushKey (portByte v) s)
  | wrKeyData32 (v : Word) : Effect s (.wrKeyData32 v) (pushKey (portWord v) s)
  | wrMsgData8 (v : Word) : Effect s (.wrMsgData8 v) (pushMsg (portByte v) s)
  | wrMsgData32 (v : Word) : Effect s (.wrMsgData32 v) (pushMsg (portWord v) s)
  | wrNoEffect (idx : BitVec 6) (v : Word) : Effect s (.wrNoEffect idx v) s

/-- An instruction other than WR.CMD answers a next state, and it is one of the named effects. -/
theorem exec_effect_of_command (i : Instr) (s : State) (hi : ∀ w, i ≠ .wrCmd w) :
    ∃ t, exec i s = .next t ∧ Effect s i t := by
  cases hb : s.busy
  · cases i with
    | wrCmd w => exact absurd rfl (hi w)
    | nop km tm n => exact ⟨_, unlessBusy_of_idle _ hb, .nop km tm n hb⟩
    | hmac km tm n => exact ⟨_, unlessBusy_of_idle _ hb, .hmac km tm n hb⟩
    | hotp km tm n =>
      refine ⟨_, unlessBusy_of_idle _ hb, ?_⟩
      split
      next hv => exact .hotp km tm n hb hv
      next => exact .fail .invalidDigits hb rfl (.inr (.inl rfl))
    | trunc km tm n =>
      refine ⟨_, unlessBusy_of_idle _ hb, ?_⟩
      split
      next hv =>
        split
        next hd => exact .trunc km tm n hb hv hd
        next => exact .fail .noDigest hb rfl (.inr (.inr rfl))
      next => exact .fail .invalidDigits hb rfl (.inr (.inl rfl))
    | clrkey km tm n => exact ⟨_, unlessBusy_of_idle _ hb, .clrkey km tm n hb⟩
    | clrmsg km tm n => exact ⟨_, unlessBusy_of_idle _ hb, .clrmsg km tm n hb⟩
    | zeroize km tm n => exact ⟨_, unlessBusy_of_idle _ hb, .zeroize km tm n hb⟩
    | illegal w => exact ⟨_, unlessBusy_of_idle _ hb, .fail .illegalCmd hb rfl (.inl rfl)⟩
    | rd idx => exact ⟨_, rfl, .rd idx⟩
    | wrCtrl v => exact ⟨_, rfl, .wrCtrl v⟩
    | wrStatus v => exact ⟨_, rfl, .wrStatus v⟩
    | wrKeyData8 v => exact ⟨_, rfl, .wrKeyData8 v⟩
    | wrKeyData32 v => exact ⟨_, rfl, .wrKeyData32 v⟩
    | wrMsgData8 v => exact ⟨_, rfl, .wrMsgData8 v⟩
    | wrMsgData32 v => exact ⟨_, rfl, .wrMsgData32 v⟩
    | wrNoEffect idx v => exact ⟨_, rfl, .wrNoEffect idx v⟩
  · cases i with
    | wrCmd w => exact absurd rfl (hi w)
    | rd idx => exact ⟨_, rfl, .rd idx⟩
    | wrCtrl v => exact ⟨_, rfl, .wrCtrl v⟩
    | wrStatus v => exact ⟨_, rfl, .wrStatus v⟩
    | wrKeyData8 v => exact ⟨_, rfl, .wrKeyData8 v⟩
    | wrKeyData32 v => exact ⟨_, rfl, .wrKeyData32 v⟩
    | wrMsgData8 v => exact ⟨_, rfl, .wrMsgData8 v⟩
    | wrMsgData32 v => exact ⟨_, rfl, .wrMsgData32 v⟩
    | wrNoEffect idx v => exact ⟨_, rfl, .wrNoEffect idx v⟩
    | _ => exact ⟨_, unlessBusy_of_busy _ hb, .busy hb rfl⟩

/-- Every instruction answers a next state, and it is one of the named effects of its command. -/
theorem exec_effect (i : Instr) (s : State) : ∃ t, exec i s = .next t ∧ Effect s i.command t := by
  rw [← exec_command]
  refine exec_effect_of_command _ s fun v => ?_
  cases i with
  | wrCmd w => exact decodeCommand_ne_wrCmd w v
  | _ => exact Instr.noConfusion

/-- Everything an instruction that answers `t` did. -/
theorem effect_of_exec {i : Instr} {s t : State} (h : exec i s = .next t) : Effect s i.command t := by
  obtain ⟨u, hu, he⟩ := exec_effect i s
  rw [hu] at h
  cases h
  exact he

/-- While a command runs, a transaction can change nothing but the error state, DONE, IE and the host's last read (42_commands.md
R194, 43_bus.md R216). -/
theorem exec_of_busy {i : Instr} {s t : State} (hb : s.busy = true) (h : exec i s = .next t) :
    t = { s with done := t.done, err := t.err, ovf := t.ovf, bsyw := t.bsyw, ie := t.ie, rdata := t.rdata } := by
  have idle : s.busy ≠ false := by simp [hb]
  have he := effect_of_exec h
  generalize i.command = j at he
  cases he with
  | wrKeyData8 v => rw [pushKey, if_pos hb]
  | wrKeyData32 v => rw [pushKey, if_pos hb]
  | wrMsgData8 v => rw [pushMsg, if_pos hb]
  | wrMsgData32 v => rw [pushMsg, if_pos hb]
  | busy | rd | wrCtrl | wrStatus | wrNoEffect => rfl
  | _ => exact absurd (by assumption) idle

/-- A completion reads the build, `pend` and the three buffers, and passes on what it does not read (42_commands.md R190, R194). -/
theorem complete_congr {s u t : State} (h : complete s = .next t)
    (hu : u = { s with
      done := u.done, err := u.err, ovf := u.ovf, bsyw := u.bsyw, ie := u.ie, schedule := u.schedule, rdata := u.rdata }) :
    complete u = .next { t with
      err := u.err, ovf := u.ovf, bsyw := u.bsyw, ie := u.ie, schedule := u.schedule, rdata := u.rdata } := by
  have hp : u.pend = s.pend := by rw [hu]
  have hk : u.key = s.key := by rw [hu]
  have hm : u.msg = s.msg := by rw [hu]
  have hd : u.dig = s.dig := by rw [hu]
  have hB : u.build = s.build := by rw [hu]
  rcases complete_next h with ⟨ho, rfl⟩ | ⟨ho, digits, cb, hc, rfl⟩ | ⟨ho, digits, cb, hc, rfl⟩
  · simp only [complete, hp, ho, completeHmac, hk, hm, hB]
    rw [hu]
    rfl
  · simp only [complete, hp, ho, completeHotp, hk, hm, hB, hc]
    rw [hu]
    rfl
  · simp only [complete, hp, ho, completeTrunc, hd, hB, hc]
    rw [hu]
    rfl

/-- What every completion leaves of the sequencing state (42_commands.md R190). -/
theorem complete_finished {s t : State} (h : complete s = .next t) :
    t.busy = false ∧ t.done = true ∧ t.pend = s.pend ∧ t.schedule = s.schedule ∧ t.build = s.build ∧ t.err = s.err ∧
    t.ovf = s.ovf ∧ t.bsyw = s.bsyw ∧ t.ie = s.ie ∧ t.rdata = s.rdata := by
  rcases complete_next h with ⟨-, rfl⟩ | ⟨-, digits, cb, -, rfl⟩ | ⟨-, digits, cb, -, rfl⟩ <;> simp

/-- A run is a step and then a run. -/
theorem run_succ_of_step {s t : State} (k : Nat) (h : step s = .next t) : run (k + 1) s = run k t := by
  rw [run, h]

end Sys2Proof.Machine
end

