-- ==== Sys2Proof/Laws/PerInstr.lean ====
section
/-!
SUPPORT. The opcode table, row by row (30_encoding.md R86, R90): the encoding of every well-formed instruction matches its row of
spec/opcode_table.json, and a default row's matches no other row of its format.
-/

namespace Sys2Proof.Laws.TableRow

/-- A command word matches a CMDW row: `(w & 0xFF80FCFF) == m` (30_encoding.md R86). -/
def CmdRow (e : Encoded) (m : Word) : Prop := ∃ w, e = .cmdw w ∧ w &&& 0xFF80FCFF#32 = m

/-- A selector matches a BUS row of mask 0xFF. -/
def BusRow (e : Encoded) (m : Byte) : Prop := ∃ v, e = .bus m v

/-- The row of the opcode table the encoding of an instruction matches. -/
def Statement (i : Instr) : Prop :=
  i.WellFormed →
    match i with
    | .nop _ _ _ => CmdRow (encode i) 0
    | .hmac _ _ _ => CmdRow (encode i) 1
    | .hotp _ _ _ => CmdRow (encode i) 2
    | .trunc _ _ _ => CmdRow (encode i) 3
    | .clrkey _ _ _ => CmdRow (encode i) 4
    | .clrmsg _ _ _ => CmdRow (encode i) 5
    | .zeroize _ _ _ => CmdRow (encode i) 6
    | .illegal w => encode i = .cmdw w ∧ ∀ m : Word, m.toNat ≤ 6 → w &&& 0xFF80FCFF#32 ≠ m
    | .rd _ => ∃ sel v, encode i = .bus sel v ∧ sel &&& 0x80#8 = 0
    | .wrCtrl _ => BusRow (encode i) 0x83
    | .wrStatus _ => BusRow (encode i) 0x84
    | .wrCmd _ => BusRow (encode i) 0x85
    | .wrKeyData8 _ => BusRow (encode i) 0x89
    | .wrKeyData32 _ => BusRow (encode i) 0x8A
    | .wrMsgData8 _ => BusRow (encode i) 0x8B
    | .wrMsgData32 _ => BusRow (encode i) 0x8C
    | .wrNoEffect _ _ => ∃ sel v, encode i = .bus sel v ∧ sel &&& 0xC0#8 = 0x80#8 ∧
        sel ∉ [0x83#8, 0x84#8, 0x85#8, 0x89#8, 0x8A#8, 0x8B#8, 0x8C#8]

/-- The bits of the row mask (30_encoding.md R86). -/
theorem rowMask_bits :
    ∀ i < 32, (0xFF80FCFF#32).getLsbD i = decide (i < 8 ∨ (10 ≤ i ∧ i < 16) ∨ 23 ≤ i) := by
  decide

/-- A word under the row mask is its opcode and its reserved bits (30_encoding.md R86). -/
theorem rowMask_eq_iff (w : Word) (op : BitVec 4) :
    w &&& 0xFF80FCFF#32 = op.setWidth 32 ↔ cmdReserved w = false ∧ cmdOp w = op := by
  constructor
  · intro h
    have bit : ∀ i < 32, (i < 8 ∨ (10 ≤ i ∧ i < 16) ∨ 23 ≤ i) → w.getLsbD i = op.getLsbD i := by
      intro i hi hc
      have row : (w &&& 0xFF80FCFF#32).getLsbD i = (op.setWidth 32).getLsbD i := by rw [h]
      rw [BitVec.getLsbD_and, rowMask_bits i hi, BitVec.getLsbD_setWidth] at row
      simpa only [hc, hi, decide_true, Bool.and_true, Bool.true_and] using row
    constructor
    · rw [cmdReserved_eq_false_iff]
      apply BitVec.eq_of_getLsbD_eq
      intro i hi
      rw [BitVec.getLsbD_and, reservedMask_bits i hi, show (0 : Word).getLsbD i = false from BitVec.getLsbD_zero]
      by_cases hc : (4 ≤ i ∧ i < 8) ∨ (10 ≤ i ∧ i < 16) ∨ 23 ≤ i
      · rw [bit i hi (by omega), BitVec.getLsbD_of_ge op i (by omega)]
        rfl
      · simp [hc]
    · apply BitVec.eq_of_getLsbD_eq
      intro i hi
      rw [← bit i (by omega) (by omega)]
      simp [cmdOp, hi]
  · intro ⟨hr, hop⟩
    rw [← cmdWord_of_fields hr, hop]
    apply BitVec.eq_of_getLsbD_eq
    intro i hi
    rw [BitVec.getLsbD_and, rowMask_bits i hi, cmdWord_bits, BitVec.getLsbD_setWidth]
    by_cases h4 : i < 4
    · simp [h4, hi, show i < 8 by omega]
    · rw [BitVec.getLsbD_of_ge op i (by omega), if_neg h4]
      by_cases h8 : i < 8
      · simp [h8]
      by_cases h10 : i < 10
      · simp [h8, h10, show ¬ 23 ≤ i by omega, show ¬ 10 ≤ i by omega]
      by_cases h16 : i < 16
      · simp [h8, h10, h16, show ¬ i < 9 by omega]
      by_cases h23 : 23 ≤ i
      · simp [BitVec.getLsbD_of_ge (cmdDigits w) (i - 16) (by omega), h8, h10, h16, show ¬ i < 9 by omega]
      · simp [h23, h8, h16]

/-- The encoding of a command matches its row, whatever its fields. -/
theorem cmdRow_cmdWord (op : BitVec 4) (km tm : Bool) (n : BitVec 7) :
    CmdRow (.cmdw (cmdWord op km tm n)) (op.setWidth 32) :=
  ⟨_, rfl, (rowMask_eq_iff _ _).mpr ⟨cmdReserved_cmdWord .., cmdOp_cmdWord ..⟩⟩

theorem nop (km tm : Bool) (n : BitVec 7) : Statement (.nop km tm n) := fun _ => cmdRow_cmdWord 0 km tm n
theorem hmac (km tm : Bool) (n : BitVec 7) : Statement (.hmac km tm n) := fun _ => cmdRow_cmdWord 1 km tm n
theorem hotp (km tm : Bool) (n : BitVec 7) : Statement (.hotp km tm n) := fun _ => cmdRow_cmdWord 2 km tm n
theorem trunc (km tm : Bool) (n : BitVec 7) : Statement (.trunc km tm n) := fun _ => cmdRow_cmdWord 3 km tm n
theorem clrkey (km tm : Bool) (n : BitVec 7) : Statement (.clrkey km tm n) := fun _ => cmdRow_cmdWord 4 km tm n
theorem clrmsg (km tm : Bool) (n : BitVec 7) : Statement (.clrmsg km tm n) := fun _ => cmdRow_cmdWord 5 km tm n
theorem zeroize (km tm : Bool) (n : BitVec 7) : Statement (.zeroize km tm n) := fun _ => cmdRow_cmdWord 6 km tm n

theorem illegal (w : Word) : Statement (.illegal w) := by
  intro hw
  refine ⟨rfl, fun m hm hrow => ?_⟩
  have small : m = (BitVec.ofNat 4 m.toNat).setWidth 32 := by
    apply BitVec.eq_of_toNat_eq
    rw [BitVec.toNat_setWidth, BitVec.toNat_ofNat]
    omega
  rw [small, rowMask_eq_iff] at hrow
  obtain ⟨hr, hop⟩ := hrow
  rcases hw with h | h
  · simp [hr] at h
  · rw [hop, BitVec.toNat_ofNat] at h
    omega

theorem rd (idx : BitVec 6) : Statement (.rd idx) := by
  intro _
  refine ⟨selector false idx, 0, rfl, ?_⟩
  revert idx
  decide

theorem wrCtrl (v : Word) : Statement (.wrCtrl v) := fun _ => ⟨v, rfl⟩
theorem wrStatus (v : Word) : Statement (.wrStatus v) := fun _ => ⟨v, rfl⟩
theorem wrCmd (v : Word) : Statement (.wrCmd v) := fun _ => ⟨v, rfl⟩
theorem wrKeyData8 (v : Word) : Statement (.wrKeyData8 v) := fun _ => ⟨v, rfl⟩
theorem wrKeyData32 (v : Word) : Statement (.wrKeyData32 v) := fun _ => ⟨v, rfl⟩
theorem wrMsgData8 (v : Word) : Statement (.wrMsgData8 v) := fun _ => ⟨v, rfl⟩
theorem wrMsgData32 (v : Word) : Statement (.wrMsgData32 v) := fun _ => ⟨v, rfl⟩

theorem wrNoEffect (idx : BitVec 6) (v : Word) : Statement (.wrNoEffect idx v) := by
  intro hw
  refine ⟨selector true idx, v, rfl, ?_⟩
  have table : ∀ j : BitVec 6, writeIgnored j = true →
      selector true j &&& 0xC0#8 = 0x80#8 ∧
        selector true j ∉ [0x83#8, 0x84#8, 0x85#8, 0x89#8, 0x8A#8, 0x8B#8, 0x8C#8] := by decide
  exact table idx hw

end Sys2Proof.Laws.TableRow
end

