-- ==== Sys2Proof/Laws/Words.lean ====
section
/-!
SUPPORT. The fields of the words the registers show: concatenation as arithmetic, the bytes of a packed word, and STATUS field by field
(10_state.md R28, R29, R31, 20_memory.md R62).
-/

namespace Sys2Proof.Machine

/-- A concatenation as a number. -/
theorem append_toNat {m n : Nat} (x : BitVec m) (y : BitVec n) : (x ++ y).toNat = x.toNat * 2 ^ n + y.toNat := by
  rw [BitVec.toNat_append, ← Nat.shiftLeft_add_eq_or_of_lt y.isLt, Nat.shiftLeft_eq]

/-- A packed word as a number (20_memory.md R62). -/
theorem word4_toNat (b0 b1 b2 b3 : Byte) :
    (word4 b0 b1 b2 b3).toNat = b0.toNat * 2 ^ 24 + b1.toNat * 2 ^ 16 + b2.toNat * 2 ^ 8 + b3.toNat := by
  rw [word4, append_toNat, append_toNat, append_toNat]
  omega

/-- The bytes of a packed word (20_memory.md R62). -/
theorem word4_bytes (b0 b1 b2 b3 : Byte) :
    (word4 b0 b1 b2 b3).extractLsb' 24 8 = b0 ∧ (word4 b0 b1 b2 b3).extractLsb' 16 8 = b1 ∧
    (word4 b0 b1 b2 b3).extractLsb' 8 8 = b2 ∧ (word4 b0 b1 b2 b3).extractLsb' 0 8 = b3 := by
  have h0 := b0.isLt
  have h1 := b1.isLt
  have h2 := b2.isLt
  have h3 := b3.isLt
  refine ⟨?_, ?_, ?_, ?_⟩ <;> apply BitVec.eq_of_toNat_eq <;>
    rw [BitVec.extractLsb'_toNat, word4_toNat, Nat.shiftRight_eq_div_pow] <;> omega

/-- PARAM as a number, for any build whose sizes fit its fields (10_state.md R28). -/
theorem view_param_toNat {s : State} (hB : s.build.B < 2 ^ 16) (hL : s.build.L < 2 ^ 8) :
    (view s 1).toNat = s.build.B + s.build.L * 2 ^ 16 := by
  change (0#8 ++ BitVec.ofNat 8 s.build.L ++ BitVec.ofNat 16 s.build.B).toNat = _
  rw [append_toNat, append_toNat, BitVec.toNat_ofNat, BitVec.toNat_ofNat, BitVec.toNat_ofNat]
  omega

/-- CAP as a number, for any build whose capacities fit its fields (10_state.md R29). -/
theorem view_cap_toNat {s : State} (hk : s.build.keyMax < 2 ^ 16) (hm : s.build.msgMax < 2 ^ 16) :
    (view s 2).toNat = s.build.keyMax + s.build.msgMax * 2 ^ 16 := by
  change (BitVec.ofNat 16 s.build.msgMax ++ BitVec.ofNat 16 s.build.keyMax : BitVec (16 + 16)).toNat = _
  rw [append_toNat, BitVec.toNat_ofNat, BitVec.toNat_ofNat]
  omega

/-- The single-bit fields of STATUS (10_state.md R31). -/
theorem statusWord_flags (s : State) :
    (statusWord s).getLsbD 0 = s.busy ∧ (statusWord s).getLsbD 1 = s.done ∧ (statusWord s).getLsbD 2 = s.dvalid ∧
    (statusWord s).getLsbD 3 = s.cvalid ∧ (statusWord s).getLsbD 4 = irq s ∧ (statusWord s).getLsbD 5 = s.ovf ∧
    (statusWord s).getLsbD 6 = s.bsyw ∧ (statusWord s).getLsbD 7 = false ∧ (statusWord s).getLsbD 23 = s.cmode := by
  refine ⟨?_, ?_, ?_, ?_, ?_, ?_, ?_, ?_, ?_⟩ <;> simp only [statusWord, BitVec.getLsbD_append] <;> simp

/-- The wider fields of STATUS (10_state.md R31). -/
theorem statusWord_fields (s : State) :
    (statusWord s).extractLsb' 8 4 = s.err ∧ (statusWord s).extractLsb' 12 4 = 0 ∧
    (statusWord s).extractLsb' 16 7 = BitVec.ofNat 7 s.code.length ∧
    (statusWord s).extractLsb' 24 4 = cmdOp s.pend ∧ (statusWord s).extractLsb' 28 4 = 0 := by
  refine ⟨?_, ?_, ?_, ?_, ?_⟩ <;> apply BitVec.eq_of_getLsbD_eq <;> intro i hi <;>
    rw [BitVec.getLsbD_extractLsb'] <;> simp only [hi, decide_true, Bool.true_and, statusWord, BitVec.getLsbD_append] <;>
    interval_cases i <;> simp

end Sys2Proof.Machine
end

