-- ==== Sys2Proof/Tests/Slice0.lean ====
section
/-!
SUPPORT. The model's own tests. Expected values come from 95_test_vectors.md or from the examples of the rules each test names. The
last part holds, for every statement with hypotheses, a concrete state and operands that meet them.
-/

namespace Sys2Proof.Tests

open Sys2Proof.Machine

/-- The next state of an outcome. -/
def out (o : Host.Outcome State Fault Refusal) : Option State :=
  match o with
  | .next t => some t
  | .fault _ => none
  | .refused _ => none

/-- What STATUS reads after an instruction. -/
def statusAfter (i : Instr) (s : State) : Option Word := (out (exec i s)).map (view · 4)

/-- `n` copies of a byte. -/
def bytes (n : Nat) (b : Byte) : Bytes := List.replicate n b

/-- The tag of counter 0 (95_test_vectors.md 2.7). -/
def tag0 : Bytes :=
  [0xcc, 0x93, 0xcf, 0x18, 0x50, 0x8d, 0x94, 0x93, 0x4c, 0x64, 0xb6, 0x5d, 0x8b, 0xa7, 0x66, 0x7f, 0xb7, 0xcd, 0xe4, 0xb0]

/-- The key "12345678901234567890" (95_test_vectors.md 2.7). -/
def rfcKey : Bytes :=
  [0x31, 0x32, 0x33, 0x34, 0x35, 0x36, 0x37, 0x38, 0x39, 0x30, 0x31, 0x32, 0x33, 0x34, 0x35, 0x36, 0x37, 0x38, 0x39, 0x30]

/-- A key and a message loaded. -/
def loaded : State := { State.reset with key := [1, 2], msg := [3] }

/-- An HMAC running (95_test_vectors.md 2.8, "busy HMAC"). -/
def busyHmac : State := { State.reset with busy := true, pend := 0x00000001 }

/-- An HOTP with 6 digits running on a loaded key. -/
def busyHotp : State := { loaded with busy := true, pend := 0x00060002 }

/-- A TRUNC to 20 prefix digits running on the tag of counter 0. -/
def busyTrunc : State := { State.reset with dig := tag0, dvalid := true, busy := true, pend := 0x00140203 }

/-- The state after `hotp` on counter 0 completed (95_test_vectors.md 2.7). -/
def held : State :=
  { State.reset with
    dig := tag0, dvalid := true, code := [7, 5, 5, 2, 2, 4], cbin := 755224, cvalid := true, pend := 0x00060002, done := true }

/-- The largest tag and the smallest buffers R7 admits, with an engine that is not SHA-1. -/
def wide : Build := { engine := .other 0, B := 1, L := 64, keyMax := 2, msgMax := 8 }

/-! ### Well-formedness -/

theorem test_illformed_illegal : ¬ (Instr.illegal 0x007F0300).WellFormed ∧ (Instr.illegal 0x00000007).WellFormed := by decide

theorem test_illformed_noeffect : ¬ (Instr.wrNoEffect 3 0).WellFormed ∧ (Instr.wrNoEffect 48 0).WellFormed := by decide

/-! ### Decoding: each row's word written out bit by bit from 30_encoding.md R82 and R81 -/

theorem test_decode_nop : decodeTableWord 32 0b00000000011111110000001100000000 = some (.nop true true 127) := by decide
theorem test_decode_hmac : decodeTableWord 32 0b00000000000000000000000100000001 = some (.hmac true false 0) := by decide
theorem test_decode_hotp : decodeTableWord 32 0b00000000000010000000001000000010 = some (.hotp false true 8) := by decide
theorem test_decode_trunc : decodeTableWord 32 0b00000000000001100000001000000011 = some (.trunc false true 6) := by decide
theorem test_decode_clrkey : decodeTableWord 32 0b00000000000000000000000000000100 = some (.clrkey false false 0) := by decide
theorem test_decode_clrmsg : decodeTableWord 32 0b00000000000000000000000000000101 = some (.clrmsg false false 0) := by decide
theorem test_decode_zeroize : decodeTableWord 32 0b00000000000000000000000000000110 = some (.zeroize false false 0) := by decide
theorem test_decode_illegal : decodeTableWord 32 0b00000000100000000000000000000010 = some (.illegal 0x00800002) := by decide
theorem test_decode_rd : decodeTableWord 8 0b00100001 = some (.rd 33) := by decide
theorem test_decode_wr_ctrl : decodeTableWord 8 0b10000011 = some (.wrCtrl 0) := by decide
theorem test_decode_wr_status : decodeTableWord 8 0b10000100 = some (.wrStatus 0) := by decide
theorem test_decode_wr_cmd : decodeTableWord 8 0b10000101 = some (.wrCmd 0) := by decide
theorem test_decode_wr_key_data8 : decodeTableWord 8 0b10001001 = some (.wrKeyData8 0) := by decide
theorem test_decode_wr_key_data32 : decode (.bus 0b10001010 0x31323334) = .ok (.wrKeyData32 0x31323334) := by decide
theorem test_decode_wr_msg_data8 : decodeTableWord 8 0b10001011 = some (.wrMsgData8 0) := by decide
theorem test_decode_wr_msg_data32 : decode (.bus 0b10001100 1) = .ok (.wrMsgData32 1) := by decide
theorem test_decode_wr_noeffect : decodeTableWord 8 0b10010000 = some (.wrNoEffect 16 0) := by decide

/-- 30_encoding.md R81: bit 6 of a selector is 0; R90: a read is a read whatever its mask leaves open. -/
theorem test_selector_bit6 : decodeTableWord 8 0b11000011 = none ∧ decodeTableWord 8 0b01000011 = some (.rd 3) := by decide

/-- The words 30_encoding.md R91 spells. -/
theorem test_encode_words :
    encode (.hotp false false 6) = .cmdw 0x00060002 ∧ encode (.hotp false true 8) = .cmdw 0x00080202 ∧
    encode (.hmac true false 0) = .cmdw 0x00000101 ∧ encode (.trunc false true 6) = .cmdw 0x00060203 ∧
    encode (.rd 33) = .bus 0x21 0 ∧ encode (.wrNoEffect 6 5) = .bus 0x86 5 := by decide

/-- The first step after reset runs the row placed: `zeroize` (95_test_vectors.md 2.8), and `wr CTRL` with its data word 1. -/
theorem test_withFetchWord :
    (out (step (State.reset.withFetchWord 32 0x00000006))).map (view · 4) = some 0x06000002 ∧
    (out (step (State.reset.withFetchWord 40 0x0000000183))).map (·.ie) = some true ∧
    (out (step (State.reset.withFetchWord 8 0x00))).map (·.rdata) = some 0x484D4143 := by decide

/-- 20_memory.md R67 (95_test_vectors.md 2.9): a write at byte offset 0x0F is a write to CTRL. -/
theorem test_misaligned_write :
    (out (step { State.reset with schedule := [.host (.write 0x0F 1)] })).map (·.ie) = some true := by decide

/-! ### One instruction at a time: 95_test_vectors.md 2.8 -/

theorem test_nop_ignored_fields : statusAfter (.wrCmd 0x007F0300) State.reset = some 0x00000002 := by decide
theorem test_nop_irq : statusAfter (.nop false false 0) { State.reset with ie := true } = some 0x00000012 := by decide
theorem test_hmac_accepted : statusAfter (.wrCmd 0x007F0201) State.reset = some 0x01000001 := by decide
theorem test_hotp_accepted : statusAfter (.wrCmd 0x000A0002) State.reset = some 0x02000001 := by decide
theorem test_hotp_eleven_rfc_digits : statusAfter (.wrCmd 0x000B0002) State.reset = some 0x00000202 := by decide
theorem test_trunc_fails :
    statusAfter (.wrCmd 0x00060003) State.reset = some 0x00000302 ∧
    statusAfter (.wrCmd 0x00000003) State.reset = some 0x00000202 := by decide
theorem test_trunc_accepted :
    statusAfter (.wrCmd 0x00060103) { held with done := false } = some 0x03000005 := by decide
theorem test_clrkey :
    (out (exec (.wrCmd 0x00000004) { State.reset with key := rfcKey })).map (fun t => (view t 4, view t 6)) =
      some (0x04000002, 0) := by decide
theorem test_clrmsg :
    (out (exec (.wrCmd 0x00000005) { State.reset with msg := bytes 8 1 })).map (fun t => (view t 4, view t 7)) =
      some (0x05000002, 0) := by decide
theorem test_zeroize_keeps_ie :
    (out (exec (.wrCmd 0x00000006) { held with ie := true })).map (fun t => (view t 4, view t 16)) = some (0x06000012, 0) := by
  decide
theorem test_zeroize_while_busy : statusAfter (.wrCmd 0x00000006) busyHmac = some 0x01000401 := by decide
theorem test_illegal_words :
    statusAfter (.wrCmd 0x00000010) State.reset = some 0x00000102 ∧
    statusAfter (.wrCmd 0x80000001) State.reset = some 0x00000102 := by decide
theorem test_illegal_while_busy : statusAfter (.wrCmd 0x00000007) busyHmac = some 0x01000401 := by decide

/-- 60_exceptions.md R262 (95_test_vectors.md P3 step 35): a failed check keeps the tag and the code. -/
theorem test_failed_check_keeps_results :
    (out (exec (.wrCmd 0x00000003) held)).map (fun t => (view t 4, view t 32)) = some (0x0206020E, 0x07050502) := by decide

/-! ### Bus transactions: 95_test_vectors.md 2.9 -/

theorem test_rd_constants :
    (out (exec (.rd 1) State.reset)).map (·.rdata) = some 0x00140040 ∧
    (out (exec (.rd 2) State.reset)).map (·.rdata) = some 0x00800080 := by decide
theorem test_rd_results :
    (view held 4, view held 8, view held 32, view held 33, view held 16, view held 20, view held 21) =
      (0x0206000E, 0x000B8618, 0x07050502, 0x02040000, 0xCC93CF18, 0xB7CDE4B0, 0) := by decide
theorem test_wr_ctrl_while_busy :
    (out (exec (.wrCtrl 1) busyHmac)).map (fun t => (t.ie, view t 4)) = some (true, 0x01000001) := by decide
theorem test_wr_status_errclr_and_ack :
    statusAfter (.wrStatus 0x00008002) { State.reset with done := true, err := 4, bsyw := true } = some 0 := by decide
theorem test_wr_status_zero : statusAfter (.wrStatus 0) held = some 0x0206000E := by decide
theorem test_wr_key_data8 : (out (exec (.wrKeyData8 0x1234) State.reset)).map (·.key) = some [0x34] := by decide
theorem test_wr_key_data8_full :
    (out (exec (.wrKeyData8 0xCC) { State.reset with key := bytes 128 1 })).map (fun t => (view t 6, t.ovf)) =
      some (128, true) := by decide +kernel
theorem test_wr_key_data32 :
    (out (exec (.wrKeyData32 0x31323334) State.reset)).map (·.key) = some [0x31, 0x32, 0x33, 0x34] := by decide
theorem test_wr_key_data32_does_not_fit :
    (out (exec (.wrKeyData32 5) { State.reset with key := bytes 127 1 })).map (fun t => (view t 6, view t 4)) =
      some (127, 0x00000020) := by decide +kernel
theorem test_wr_msg_data8 :
    (out (exec (.wrMsgData8 0x39) { State.reset with msg := [0x35] })).map (·.msg) = some [0x35, 0x39] := by decide
theorem test_wr_msg_data32 :
    (out (exec (.wrMsgData32 1) { State.reset with msg := [0, 0, 0, 0] })).map (·.msg) = some [0, 0, 0, 0, 0, 0, 0, 1] := by
  decide
theorem test_wr_msg_data32_while_busy :
    (out (exec (.wrMsgData32 0x11223344) busyHmac)).map (fun t => (view t 7, view t 4)) = some (0, 0x01000041) := by decide
theorem test_wr_noeffect : (out (exec (.wrNoEffect 16 0xFFFFFFFF) held)).map (view · 16) = some 0xCC93CF18 := by decide

/-! ### The datapath: 95_test_vectors.md 2.1, 2.3, 2.5 to 2.8 -/

/-- K2, K5, K7. -/
theorem test_normKey :
    normKey Build.reference false [0] = zeros 64 ∧ normKey Build.reference true (bytes 65 0x61) = bytes 64 0x61 ∧
    normKey Build.reference true (bytes 64 0 ++ bytes 64 0xFF) = zeros 64 := by decide +kernel

/-- K6: SHA-1 of 65 bytes 0x61. -/
theorem test_normKey_hashes_oversized :
    normKey Build.reference false (bytes 65 0x61) =
      [0x11, 0x65, 0x53, 0x26, 0xc7, 0x08, 0xd7, 0x03, 0x19, 0xbe, 0x26, 0x10, 0xe8, 0xa5, 0x7d, 0x9a, 0x5b, 0x95, 0x9d,
       0x3b] ++ zeros 44 := by decide +kernel

/-- 2.5: first row and the row of the tag of counter 0; 2.6: the all-ones tag, the sign bit, leading zeros, the high nibble. -/
theorem test_truncation :
    hotpCode 20 true 6 ([0x00, 0x09, 0x0a, 0xf9, 0xfa, 0xff] ++ zeros 14) = some ([0, 9, 0, 9, 0, 5], 0) ∧
    hotpCode 20 true 20 tag0 = some ([4, 7, 7, 4, 0, 1, 8, 7, 6, 0, 2, 3, 9, 7, 2, 7, 3, 5, 8, 6], 0) ∧
    hotpCode 20 false 10 (bytes 20 0xff) = some ([2, 1, 4, 7, 4, 8, 3, 6, 4, 7], 0x7FFFFFFF) ∧
    hotpCode 20 false 6 (zeros 15 ++ [0x80, 0, 0, 0, 0x0f]) = some ([0, 0, 0, 0, 0, 0], 0) ∧
    hotpCode 20 false 6 (zeros 13 ++ [0, 0, 0, 0x7b, 0, 0, 0x0d]) = some ([0, 0, 0, 1, 2, 3], 123) ∧
    hotpCode 20 false 10 ([0x7f, 0xff, 0xff, 0xff] ++ zeros 15 ++ [0x30]) =
      some ([2, 1, 4, 7, 4, 8, 3, 6, 4, 7], 2147483647) := by decide +kernel

/-- 2.4. -/
theorem test_validDigits :
    validDigits 20 false 0 = false ∧ validDigits 20 false 10 = true ∧ validDigits 20 false 11 = false ∧
    validDigits 20 true 20 = true ∧ validDigits 20 true 21 = false := by decide

/-- H1: the empty key and the empty message, at completion (2.8). -/
theorem test_complete_hmac :
    (out (step { busyHmac with schedule := [.engine] })).map (fun t => (view t 4, (List.range 5).map (packBE t.dig))) =
      some (0x01000006, [0xfbdb1d1b, 0x18aa6c08, 0x324b7d64, 0xb71fb763, 0x70690e1d]) := by decide +kernel

/-- 2.7 and 2.8: counter 1, by the engine's turn. -/
theorem test_complete_hotp :
    (out (step { State.reset with key := rfcKey, msg := [0, 0, 0, 0, 0, 0, 0, 1], busy := true, pend := 0x00060002 })).map
      (fun t => (view t 4, view t 8, view t 32, view t 33, view t 16, view t 6, view t 7)) =
      some (0x0206000E, 0x0004616A, 0x02080700, 0x08020000, 0x75A48A19, 0, 0) := by decide +kernel

/-- The digits of 2.5's row for the tag of counter 0, as TRUNC's completion gives them. -/
theorem test_complete_trunc :
    (out (step busyTrunc)).map (fun t => (view t 4, t.code, view t 8, view t 16)) =
      some (0x0394000E, [4, 7, 7, 4, 0, 1, 8, 7, 6, 0, 2, 3, 9, 7, 2, 7, 3, 5, 8, 6], 0, 0xCC93CF18) := by decide +kernel

/-- H7 and H7r: the two key modes on 65 bytes 0x61 and "abc". -/
theorem test_hmac_key_modes :
    (hmac Build.reference false (bytes 65 0x61) [0x61, 0x62, 0x63]).take 4 = [0x50, 0xbe, 0x8b, 0xaf] ∧
    (hmac Build.reference true (bytes 65 0x61) [0x61, 0x62, 0x63]).take 4 = [0x5e, 0x38, 0xc8, 0x7c] := by decide +kernel

/-- 2.11: reset while HOTP runs. -/
theorem test_reset_while_busy :
    (out (step { busyHotp with ie := true, ovf := true, schedule := [.reset] })).map
      (fun t => (view t 4, view t 6, view t 3, t.busy)) = some (0, 0, 0, false) := by decide

/-! ### Witnesses: for every statement with hypotheses, a state and operands that meet them, clause by clause -/

theorem busyHmac_inv : StateInv busyHmac := by constructor <;> decide
theorem busyHotp_inv : StateInv busyHotp := by constructor <;> decide
theorem busyTrunc_inv : StateInv busyTrunc := by constructor <;> decide
theorem held_inv : StateInv held := by constructor <;> decide
theorem loaded_inv : StateInv loaded := by constructor <;> decide

/-- The invariant of a state with its schedule replaced: no field of it speaks of the schedule. -/
theorem inv_schedule {s : State} (h : StateInv s) (es : List Event) : StateInv { s with schedule := es } :=
  ⟨h.build, h.keyFits, h.msgFits, h.tagLength, h.pendReserved, h.pendOp, h.busyOp, h.busyDigits, h.busyTag, h.busyCode,
    h.busyDone, h.noTag, h.noCode, h.codeNonempty, h.codeTag, h.codeOfTag, h.codeDigits, h.codeLength, h.errCode⟩

theorem witness_DecodeOfEncodeIsTheInstruction :
    (Instr.hotp true true 127).WellFormed ∧ (Instr.illegal 0xFFFFFFFF).WellFormed ∧ (Instr.rd 63).WellFormed ∧
    (Instr.wrNoEffect 63 0xFFFFFFFF).WellFormed := by decide

theorem witness_CommandFieldsAndReservedMask : cmdReserved 0x007F030F = false := by decide

theorem witness_AddressDecode :
    (256 % 256 = 0 ∧ 255 < 256) ∧ regAt 48 = regAt 63 ∧ regAt 13 = regAt 15 ∧ regAt 31 = regAt 31 := by decide

theorem witness_StepRunsTheDecodedInstruction :
    (∃ (s : State) (rest : List Event) (a : Nat) (i : Instr), s.build.valid = true ∧
      s.schedule = .host (.read a) :: rest ∧ decode (.bus (selector false (wordIndex a)) 0) = .ok i) ∧
    (∃ (s : State) (rest : List Event) (a : Nat) (v : Word) (i : Instr), s.build.valid = true ∧
      s.schedule = .host (.write a v) :: rest ∧ decode (.bus (selector true (wordIndex a)) v) = .ok i) ∧
    (∃ (s : State) (rest : List Event) (a : Nat) (v : Word) (i : Instr), s.build.valid = true ∧
      s.schedule = .host (.write a v) :: rest ∧ a / 4 % 64 = 5 ∧ decode (.cmdw v) = .ok i) :=
  ⟨⟨{ held with schedule := [.host (.read 0xFF)] }, [], 0xFF, .rd 63, by decide, rfl, by decide⟩,
    ⟨{ held with schedule := [.host (.write 0xFF 7), .engine] }, [.engine], 0xFF, 7, .wrNoEffect 63 7, by decide, rfl,
      by decide⟩,
    ⟨{ held with schedule := [.host (.write 0x117 0x007F0306)] }, [], 0x117, 0x007F0306, .zeroize true true 127, by decide,
      rfl, by decide, by decide⟩⟩

theorem witness_EngineTurnIsCompleteWhenBusy :
    busyHmac.build.valid = true ∧ { busyHmac with schedule := [.engine] }.schedule = [Event.engine] ∧
    busyHmac.schedule = [] ∧ held.build.valid = true ∧ held.schedule = [] := by decide

theorem witness_TheBlockNeverStops :
    StateInv busyTrunc ∧ StateInv held ∧
    ∃ (i : Instr) (s t : State), i.writesCmd = true ∧ exec i s = .next t ∧ t.err ≠ 0 :=
  ⟨busyTrunc_inv, held_inv, .illegal 7, held, _, rfl, rfl, by decide⟩

theorem witness_BuildIsCheckedAndConstant :
    { held with build := { wide with L := 18 } }.build.valid = false ∧
    { held with build := { wide with keyMax := 1 } }.build.valid = false ∧
    wide.valid = true ∧ ∃ t, step { held with schedule := [.engine] } = .next t :=
  ⟨by decide, by decide, by decide, _, rfl⟩

theorem witness_ResetSetsEveryElement :
    { busyHotp with schedule := [.reset, .engine] }.build.valid = true ∧
    { busyHotp with schedule := [.reset, .engine] }.schedule = Event.reset :: [.engine] := by decide

theorem witness_RegistersAfterReset :
    wide.valid = true ∧ { wide with B := 65534, keyMax := 65535, msgMax := 65535 }.valid = true ∧
    3 ≤ (3 : BitVec 6).toNat ∧ 3 ≤ (63 : BitVec 6).toNat := by decide

theorem witness_OnlyResetAbortsACommand :
    ({ busyHotp with schedule := [.reset, .engine, .engine] }.build.valid = true ∧
      { busyHotp with schedule := [.reset, .engine, .engine] }.busy = true ∧
      { busyHotp with schedule := [.reset, .engine, .engine] }.schedule = .reset :: List.replicate 2 .engine) ∧
    busyHotp.busy = true ∧ ∃ t, exec (.wrCmd 6) busyHotp = .next t :=
  ⟨by decide, rfl, _, rfl⟩

theorem witness_NopOnlyReportsDone : held.busy = false ∧ busyTrunc.busy = true := by decide

theorem witness_HmacIsAccepted : held.busy = false := rfl

theorem witness_ClrkeyEmptiesTheKey : loaded.busy = false ∧ busyHmac.busy = true := by decide

theorem witness_ClrmsgEmptiesTheMessage : loaded.busy = false ∧ busyHotp.busy = true := by decide

theorem witness_ZeroizeIsResetButForThreeElements : held.busy = false ∧ busyTrunc.busy = true := by decide

theorem witness_CmdWriteIsItsCommand : busyHmac.busy = true := rfl

theorem witness_HotpIsAcceptedOrFails :
    loaded.busy = false ∧ validDigits loaded.build.L false (10 : BitVec 7).toNat = true ∧
    validDigits loaded.build.L false (11 : BitVec 7).toNat = false ∧
    validDigits loaded.build.L true (20 : BitVec 7).toNat = true ∧
    validDigits loaded.build.L true (21 : BitVec 7).toNat = false := by decide

theorem witness_TruncIsAcceptedOrFails :
    (held.busy = false ∧ validDigits held.build.L true (20 : BitVec 7).toNat = true ∧ held.dvalid = true) ∧
    (loaded.busy = false ∧ validDigits loaded.build.L false (1 : BitVec 7).toNat = true ∧ loaded.dvalid = false) ∧
    validDigits held.build.L false (0 : BitVec 7).toNat = false := by decide

theorem witness_IllegalWordsFail :
    (0x00000010#32 &&& 0xFF80FCF0#32 ≠ 0 ∨ 7 ≤ (0x00000010#32).toNat % 16) ∧
    (0x007F0307#32 &&& 0xFF80FCF0#32 ≠ 0 ∨ 7 ≤ (0x007F0307#32).toNat % 16) ∧ held.busy = false := by decide

theorem witness_CompletionOfHmac : busyHmac.busy = true ∧ (cmdOp busyHmac.pend).toNat = 1 := by decide

theorem witness_CompletionOfHotp : StateInv busyHotp ∧ busyHotp.busy = true ∧ (cmdOp busyHotp.pend).toNat = 2 :=
  ⟨busyHotp_inv, rfl, rfl⟩

theorem witness_CompletionOfTrunc : StateInv busyTrunc ∧ busyTrunc.busy = true ∧ (cmdOp busyTrunc.pend).toNat = 3 :=
  ⟨busyTrunc_inv, rfl, rfl⟩

theorem witness_HostCannotChangeARunningCommand :
    ∃ (s : State) (ts : List Transaction) (rest : List Event), StateInv s ∧ s.busy = true ∧ ts.length = 3 ∧
      s.schedule = ts.map .host ++ .engine :: rest :=
  ⟨{ busyHotp with schedule := [.host (.write 0x24 1), .host (.write 0x14 6), .host (.read 0x10), .engine] },
    [.write 0x24 1, .write 0x14 6, .read 0x10], [], inv_schedule busyHotp_inv _, rfl, rfl, rfl⟩

theorem witness_HmacFromWriteToTag :
    ∃ (s : State) (ts : List Transaction) (rest : List Event), StateInv s ∧ s.busy = false ∧
      s.schedule = .host (.write 0x14 (cmdWord 1 true false 0)) :: (ts.map .host ++ .engine :: rest) :=
  ⟨{ loaded with schedule := [.host (.write 0x14 (cmdWord 1 true false 0)), .host (.read 0x40), .engine] }, [.read 0x40], [],
    inv_schedule loaded_inv _, rfl, rfl⟩

theorem witness_HotpFromWriteToCode :
    ∃ (s : State) (ts : List Transaction) (rest : List Event), StateInv s ∧ s.busy = false ∧
      validDigits s.build.L true (20 : BitVec 7).toNat = true ∧
      s.schedule = .host (.write 0x14 (cmdWord 2 false true 20)) :: (ts.map .host ++ .engine :: rest) :=
  ⟨{ loaded with schedule := [.host (.write 0x14 (cmdWord 2 false true 20)), .host (.write 0x28 9), .engine] },
    [.write 0x28 9], [], inv_schedule loaded_inv _, rfl, by decide, rfl⟩

theorem witness_TruncReproducesTheHeldCode :
    ∃ (s : State) (rest : List Event), StateInv s ∧ s.busy = false ∧ s.cvalid = true ∧
      (6 : BitVec 7).toNat = s.code.length ∧
      s.schedule = .host (.write 0x14 (cmdWord 3 true s.cmode 6)) :: .engine :: rest :=
  ⟨{ held with schedule := [.host (.write 0x14 (cmdWord 3 true false 6)), .engine] }, [], inv_schedule held_inv _, rfl, rfl,
    rfl, rfl⟩

theorem witness_BusyErrorOutlivesCompletion :
    ∃ (s : State) (w : Word) (rest : List Event), StateInv s ∧ s.busy = true ∧
      s.schedule = .host (.write 0x14 w) :: .engine :: rest :=
  ⟨{ busyTrunc with schedule := [.host (.write 0x14 7), .engine] }, 7, [], inv_schedule busyTrunc_inv _, rfl, rfl⟩

theorem witness_RunningCommandCompletes :
    (StateInv busyHotp ∧ busyHotp.busy = true ∧ Event.reset ∉ busyHotp.schedule) ∧
    ∃ s : State, StateInv s ∧ s.busy = true ∧ s.schedule.length = 1 ∧ Event.reset ∉ s.schedule :=
  ⟨⟨busyHotp_inv, rfl, by decide⟩, { busyHotp with schedule := [.host (.read 0x10)] }, inv_schedule busyHotp_inv _, rfl, rfl,
    by decide⟩

theorem witness_ReadsOfPlainRegisters :
    StateInv held ∧ ((5 : BitVec 6) ∈ [5#6, 9#6, 10#6, 11#6, 12#6, 13#6, 14#6, 15#6] ∨ 48 ≤ (5 : BitVec 6).toNat) ∧
    ((48 : BitVec 6) ∈ [5#6, 9#6, 10#6, 11#6, 12#6, 13#6, 14#6, 15#6] ∨ 48 ≤ (48 : BitVec 6).toNat) :=
  ⟨held_inv, by decide, by decide⟩

theorem witness_ReadOfStatus : StateInv held ∧ StateInv busyTrunc := ⟨held_inv, busyTrunc_inv⟩

theorem witness_ReadsOfDigestAndCode :
    (15 < 16 ∧ held.dig.length ≤ 4 * 15 ∧ held.code.length ≤ 4 * 15) ∧
    (held.dig.length ≤ 4 * 5 ∧ held.code.length ≤ 4 * 2) := by decide

theorem witness_ReadsAndControlWritesAreIdempotent :
    (∃ t, exec (.rd 4) held = .next t) ∧ (∃ t, exec (.wrCtrl 1) held = .next t) ∧
    ∃ t, exec (.wrStatus 0x8002) held = .next t :=
  ⟨⟨_, rfl⟩, ⟨_, rfl⟩, _, rfl⟩

theorem witness_WritesWithoutEffect :
    (0 : BitVec 6) ∉ [3#6, 4#6, 5#6, 9#6, 10#6, 11#6, 12#6] ∧ (6 : BitVec 6) ∉ [3#6, 4#6, 5#6, 9#6, 10#6, 11#6, 12#6] ∧
    (13 : BitVec 6) ∉ [3#6, 4#6, 5#6, 9#6, 10#6, 11#6, 12#6] ∧
    (63 : BitVec 6) ∉ [3#6, 4#6, 5#6, 9#6, 10#6, 11#6, 12#6] := by decide

theorem witness_WriteOfStatus :
    ((0xFFFF7FFD#32).getLsbD 1 = false ∧ (0xFFFF7FFD#32).getLsbD 15 = false) ∧
    ((0x00000002#32).getLsbD 1 = true ∧ (0x00000002#32).getLsbD 15 = false) ∧
    ((0x00008000#32).getLsbD 1 = false ∧ (0x00008000#32).getLsbD 15 = true) ∧
    ((0x00008002#32).getLsbD 1 = true ∧ (0x00008002#32).getLsbD 15 = true) := by decide

/-- The key and the message at their capacity of 128 bytes, and a single word. -/
theorem witness_PushedWordsPackBack :
    (∃ (s : State) (ws : List Word), s.build.valid = true ∧ s.busy = false ∧ s.key = [] ∧ 4 * ws.length = s.build.keyMax ∧
      s.schedule = ws.map (fun w => .host (.write 0x28 w))) ∧
    ∃ (s : State) (ws : List Word), s.build.valid = true ∧ s.busy = false ∧ s.msg = [] ∧ 4 * ws.length = s.build.msgMax ∧
      s.schedule = ws.map (fun w => .host (.write 0x30 w)) :=
  ⟨⟨{ State.reset with schedule := (List.replicate 32 7).map (fun w => .host (.write 0x28 w)) }, List.replicate 32 7,
      by decide, rfl, rfl, rfl, rfl⟩,
    ⟨{ State.reset with schedule := (List.replicate 32 7).map (fun w => .host (.write 0x30 w)) }, List.replicate 32 7,
      by decide, rfl, rfl, rfl, rfl⟩⟩

theorem witness_KeyAndMessageAreNeverReadable :
    ([9, 9] : Bytes).length = loaded.key.length ∧ ([9] : Bytes).length = loaded.msg.length ∧
    ∃ t, exec (.wrKeyData8 1) loaded = .next t :=
  ⟨rfl, rfl, _, rfl⟩

theorem witness_InterruptRisesAndFalls :
    (∃ t, exec (.wrCtrl 1) held = .next t ∧ irq held = false ∧ irq t = true) ∧
    (∃ t, exec (.wrCmd 0) { loaded with ie := true } = .next t ∧ irq { loaded with ie := true } = false ∧ irq t = true) ∧
    (∃ t, exec (.wrStatus 2) { held with ie := true } = .next t ∧ irq { held with ie := true } = true ∧ irq t = false) ∧
    (∃ t, exec (.wrCmd 1) { held with ie := true } = .next t ∧ irq { held with ie := true } = true ∧ irq t = false) ∧
    ∃ t, complete busyTrunc = .next t :=
  ⟨⟨_, rfl, rfl, rfl⟩, ⟨_, rfl, rfl, rfl⟩, ⟨_, rfl, rfl, rfl⟩, ⟨_, rfl, rfl, rfl⟩, _, rfl⟩

theorem witness_ErrorStateIsClearedOnlyAsStated :
    (∃ t, exec (.wrCmd 6) { held with ovf := true } = .next t ∧ { held with ovf := true }.ovf = true ∧ t.ovf = false) ∧
    (∃ t, exec (.wrStatus 0x8000) { held with bsyw := true } = .next t ∧ { held with bsyw := true }.bsyw = true ∧
      t.bsyw = false) ∧
    (∃ t, exec (.wrCmd 0) { held with err := 2 } = .next t ∧ { held with err := 2 }.err ≠ 0 ∧ t.err = 0) ∧
    (∃ t, complete busyTrunc = .next t) ∧ (0x00008000#32).getLsbD 15 = true :=
  ⟨⟨_, rfl, rfl, rfl⟩, ⟨_, rfl, rfl, rfl⟩, ⟨_, rfl, by decide, rfl⟩, ⟨_, rfl⟩, by decide⟩

theorem witness_ResultsReadZeroWhileBusy :
    StateInv busyHotp ∧ busyHotp.busy = true ∧ (cmdOp busyHotp.pend).toNat ≠ 3 ∧
    (32 ≤ (47 : BitVec 6).toNat ∧ (47 : BitVec 6).toNat < 48) ∧ (16 ≤ (31 : BitVec 6).toNat ∧ (31 : BitVec 6).toNat < 32) :=
  ⟨busyHotp_inv, rfl, by decide, by decide, by decide⟩

theorem witness_EveryStepKeepsTheInvariant : StateInv busyTrunc ∧ ∃ t, step busyTrunc = .next t := ⟨busyTrunc_inv, _, rfl⟩

theorem witness_ResetMeetsTheInvariant : wide.valid = true := by decide

/-- `wide` has B = 1 and L = 64 (B < L); the reference build has L ≤ B. -/
theorem witness_KeyNormalisation :
    ([7] : Bytes).length ≤ wide.B ∧ wide.B < ([7, 8] : Bytes).length ∧ wide.B < wide.L ∧
    Build.reference.B < (bytes 65 7).length ∧ Build.reference.L ≤ Build.reference.B := by decide +kernel

theorem witness_HmacKeyModes :
    (bytes 64 7).length ≤ Build.reference.B ∧ Build.reference.B < (bytes 65 7).length ∧
    Build.reference.L ≤ Build.reference.B := by decide +kernel

theorem witness_DigitCountCheck : wide.valid = true ∧ 64 < (65 : BitVec 7).toNat := by decide

theorem witness_PrefixTruncation :
    tag0.length = 20 ∧ (1 ≤ 1 ∧ 1 ≤ 20) ∧ (1 ≤ 20 ∧ 20 ≤ 20) ∧ (zeros 64).length = 64 := by decide +kernel

theorem witness_RfcDynamicTruncation : tag0.length = 20 ∧ (zeros 19).length = 19 ∧ 19 ≤ 19 ∧ 1 ≤ 10 ∧ 10 ≤ 10 := by
  decide +kernel

theorem witness_RfcDigitsSpellTheBinaryCode : hotpCode 20 false 6 tag0 = some ([7, 5, 5, 2, 2, 4], 755224) := by decide

/-- Two tags that differ outside the window and in the high nibble of the last byte. -/
theorem witness_RfcCodeDependsOnItsWindowOnly :
    ((bytes 19 1 ++ [0xA0]).getD 19 0).toNat % 16 = ((bytes 4 1 ++ bytes 15 2 ++ [0x50]).getD 19 0).toNat % 16 ∧
    ∀ j < 4, (bytes 19 1 ++ [0xA0]).getD (((bytes 19 1 ++ [0xA0]).getD 19 0).toNat % 16 + j) 0 =
      (bytes 4 1 ++ bytes 15 2 ++ [0x50]).getD (((bytes 19 1 ++ [0xA0]).getD 19 0).toNat % 16 + j) 0 := by decide +kernel

theorem witness_CodeShape :
    hotpCode 20 true 2 tag0 = some ([4, 7], 0) ∧ 6 ≤ 10 ∧
    hotpCode 20 false 10 tag0 = some ([1, 2, 8, 4, 7, 5, 5, 2, 2, 4], 1284755224) ∧
    hotpCode 20 false 6 tag0 = some ([7, 5, 5, 2, 2, 4], 755224) := by decide

end Sys2Proof.Tests
end

section
/-!
SUPPORT. Two states that differ only in the bytes of the key and the message, and what keeps them so (10_state.md R24): the register
view, each named update, the BUSY check, and every instruction.
-/

namespace Sys2Proof.Machine

/-- `u` is `s` but for the bytes of the key and the message, whose lengths are the same (10_state.md R24). -/
def SameButBytes (s u : State) : Prop :=
  ∃ k m, u = { s with key := k, msg := m } ∧ k.length = s.key.length ∧ m.length = s.msg.length

/-- Both outcomes are next states, the same but for the bytes of the key and the message. -/
def SameAnswer (o p : Host.Outcome State Fault Refusal) : Prop :=
  ∃ t v, o = .next t ∧ p = .next v ∧ SameButBytes t v

/-- No register shows a byte of the key or the message: KEY_LEN and MSG_LEN, which show the lengths, are all that reads them. -/
theorem view_withBytes (s : State) (idx : BitVec 6) {k m : Bytes}
    (hk : k.length = s.key.length) (hm : m.length = s.msg.length) :
    view { s with key := k, msg := m } idx = view s idx := by
  simp only [view]
  cases regAt idx with
  | keyLen => simp only [hk]
  | msgLen => simp only [hm]
  | _ => rfl

/-- A choice whose condition reads none of the bytes. -/
theorem SameButBytes.ite {c : Prop} [Decidable c] {s s' u u' : State} (h : SameButBytes s u) (h' : SameButBytes s' u') :
    SameButBytes (if c then s else s') (if c then u else u') := by
  split
  · exact h
  · exact h'

theorem SameButBytes.next {t v : State} (h : SameButBytes t v) : SameAnswer (.next t) (.next v) := ⟨t, v, rfl, rfl, h⟩

section
variable {s u : State} (h : SameButBytes s u)
include h

theorem SameButBytes.busy_eq : u.busy = s.busy := by
  obtain ⟨k, m, rfl, -, -⟩ := h
  rfl

theorem SameButBytes.build_eq : u.build = s.build := by
  obtain ⟨k, m, rfl, -, -⟩ := h
  rfl

theorem SameButBytes.dvalid_eq : u.dvalid = s.dvalid := by
  obtain ⟨k, m, rfl, -, -⟩ := h
  rfl

/-- An update that neither reads nor writes the key and the message. -/
theorem SameButBytes.update {f : State → State}
    (hf : ∀ x k m, f { x with key := k, msg := m } = { f x with key := k, msg := m })
    (hkey : (f s).key = s.key) (hmsg : (f s).msg = s.msg) : SameButBytes (f s) (f u) := by
  obtain ⟨k, m, rfl, hk, hm⟩ := h
  exact ⟨k, m, hf s k m, by rw [hk, hkey], by rw [hm, hmsg]⟩

theorem SameButBytes.rejectBusy : SameButBytes (rejectBusy s) (rejectBusy u) :=
  h.update (fun _ _ _ => rfl) rfl rfl

theorem SameButBytes.failCmd (e : ErrCode) : SameButBytes (failCmd e s) (failCmd e u) :=
  h.update (fun _ _ _ => rfl) rfl rfl

theorem SameButBytes.acceptImmediate (w : Word) : SameButBytes (acceptImmediate w s) (acceptImmediate w u) :=
  h.update (fun _ _ _ => rfl) rfl rfl

theorem SameButBytes.acceptBusy (w : Word) : SameButBytes (acceptBusy w s) (acceptBusy w u) :=
  h.update (fun _ _ _ => rfl) rfl rfl

theorem SameButBytes.dropTag : SameButBytes (dropTag s) (dropTag u) :=
  h.update (fun _ _ _ => rfl) rfl rfl

theorem SameButBytes.zeroizeState : SameButBytes (zeroizeState s) (zeroizeState u) := by
  obtain ⟨k, m, rfl, -, -⟩ := h
  exact ⟨[], [], rfl, rfl, rfl⟩

theorem SameButBytes.clearKey : SameButBytes { s with key := [] } { u with key := [] } := by
  obtain ⟨k, m, rfl, -, hm⟩ := h
  exact ⟨[], m, rfl, rfl, hm⟩

theorem SameButBytes.clearMsg : SameButBytes { s with msg := [] } { u with msg := [] } := by
  obtain ⟨k, m, rfl, hk, -⟩ := h
  exact ⟨k, [], rfl, hk, rfl⟩

theorem SameButBytes.read (idx : BitVec 6) :
    SameButBytes { s with rdata := view s idx } { u with rdata := view u idx } := by
  obtain ⟨k, m, rfl, hk, hm⟩ := h
  rw [view_withBytes s idx hk hm]
  exact ⟨k, m, rfl, hk, hm⟩

theorem SameButBytes.writeCtrl (b : Bool) : SameButBytes { s with ie := b } { u with ie := b } :=
  h.update (f := fun x => { x with ie := b }) (fun _ _ _ => rfl) rfl rfl

theorem SameButBytes.writeStatus (v : Word) : SameButBytes (writeStatus v s) (writeStatus v u) :=
  h.update (fun _ _ _ => rfl) rfl rfl

/-- Whether a key push is dropped hangs on the length of the key and not on its bytes. -/
theorem SameButBytes.pushKey (bs : Bytes) : SameButBytes (pushKey bs s) (pushKey bs u) := by
  obtain ⟨k, m, rfl, hk, hm⟩ := h
  simp only [Machine.pushKey, hk]
  refine .ite ⟨k, m, rfl, hk, hm⟩ (.ite ⟨k, m, rfl, hk, hm⟩ ⟨k ++ bs, m, rfl, ?_, hm⟩)
  simp [hk]

/-- Whether a message push is dropped hangs on the length of the message and not on its bytes. -/
theorem SameButBytes.pushMsg (bs : Bytes) : SameButBytes (pushMsg bs s) (pushMsg bs u) := by
  obtain ⟨k, m, rfl, hk, hm⟩ := h
  simp only [Machine.pushMsg, hm]
  refine .ite ⟨k, m, rfl, hk, hm⟩ (.ite ⟨k, m, rfl, hk, hm⟩ ⟨k, m ++ bs, rfl, hk, ?_⟩)
  simp [hm]

/-- A command write is rejected in both states or in neither. -/
theorem SameButBytes.unlessBusy {t v : State} (ht : SameButBytes t v) : SameAnswer (unlessBusy s t) (unlessBusy u v) := by
  rw [unlessBusy_eq, unlessBusy_eq, h.busy_eq]
  exact (h.rejectBusy.ite ht).next

theorem SameButBytes.execHotp (km tm : Bool) (n : BitVec 7) : SameAnswer (execHotp km tm n s) (execHotp km tm n u) := by
  simp only [Machine.execHotp, h.build_eq]
  exact h.unlessBusy (.ite (h.dropTag.acceptBusy _) (h.failCmd _))

theorem SameButBytes.execTrunc (km tm : Bool) (n : BitVec 7) : SameAnswer (execTrunc km tm n s) (execTrunc km tm n u) := by
  simp only [Machine.execTrunc, h.build_eq, h.dvalid_eq]
  exact h.unlessBusy (.ite (.ite (h.acceptBusy _) (h.failCmd _)) (h.failCmd _))

/-- Every instruction but WR.CMD answers the two states alike. -/
theorem SameButBytes.exec_of_command (i : Instr) (hi : ∀ w, i ≠ .wrCmd w) : SameAnswer (exec i s) (exec i u) := by
  cases i with
  | wrCmd w => exact absurd rfl (hi w)
  | nop => exact h.unlessBusy (h.acceptImmediate _)
  | hmac => exact h.unlessBusy (h.dropTag.acceptBusy _)
  | hotp => exact h.execHotp ..
  | trunc => exact h.execTrunc ..
  | clrkey => exact h.unlessBusy (h.clearKey.acceptImmediate _)
  | clrmsg => exact h.unlessBusy (h.clearMsg.acceptImmediate _)
  | zeroize => exact h.unlessBusy (h.zeroizeState.acceptImmediate _)
  | illegal => exact h.unlessBusy (h.failCmd _)
  | rd idx => exact (h.read idx).next
  | wrCtrl => exact (h.writeCtrl _).next
  | wrStatus v => exact (h.writeStatus v).next
  | wrKeyData8 => exact (h.pushKey _).next
  | wrKeyData32 => exact (h.pushKey _).next
  | wrMsgData8 => exact (h.pushMsg _).next
  | wrMsgData32 => exact (h.pushMsg _).next
  | wrNoEffect => exact h.next

/-- Every instruction answers the two states alike; a CMD write is the command its word decodes to. -/
theorem SameButBytes.exec (i : Instr) : SameAnswer (exec i s) (exec i u) := by
  cases i with
  | wrCmd w =>
    rw [exec_wrCmd, exec_wrCmd]
    exact h.exec_of_command _ (decodeCommand_ne_wrCmd w)
  | _ => exact h.exec_of_command _ fun _ => Instr.noConfusion

end

/-- Settles O44: the answers of two states that differ only in those bytes are the same but for those bytes. -/
theorem keyAndMessageAreNeverReadable : Obligations.KeyAndMessageAreNeverReadable := by
  intro i s t k m hk hm ht
  have same : SameButBytes s { s with key := k, msg := m } := ⟨k, m, rfl, hk, hm⟩
  obtain ⟨t', v, ht', hv, k', m', rfl, hk', hm'⟩ := same.exec i
  rw [ht] at ht'
  cases ht'
  exact ⟨k', m', hv, hk', hm'⟩

end Sys2Proof.Machine
end

section
/-!
SUPPORT. The value of each field of a command word in the arithmetic of the word's value (30_encoding.md R83).
-/

namespace Sys2Proof.Machine

/-- A field of a word is the quotient of the word's value by the weight of its first bit, cut to the field's length. -/
theorem extractLsb'_toNat_eq_div (w : Word) (p n : Nat) : (w.extractLsb' p n).toNat = w.toNat / 2 ^ p % 2 ^ n := by
  rw [BitVec.extractLsb'_toNat, Nat.shiftRight_eq_div_pow]

/-- A bit of a word is the parity of the quotient of the word's value by the bit's weight. -/
theorem getLsbD_eq_decide_div (w : Word) (p : Nat) : w.getLsbD p = decide (w.toNat / 2 ^ p % 2 = 1) := by
  rw [← BitVec.testBit_toNat, Nat.testBit_eq_decide_div_mod_eq]

theorem cmdOp_toNat (w : Word) : (cmdOp w).toNat = w.toNat % 16 :=
  calc (cmdOp w).toNat = w.toNat / 2 ^ 0 % 2 ^ 4 := extractLsb'_toNat_eq_div w 0 4
    _ = w.toNat % 16 := by simp

theorem cmdKm_eq_decide (w : Word) : cmdKm w = decide (w.toNat / 2 ^ 8 % 2 = 1) := getLsbD_eq_decide_div w 8

theorem cmdTm_eq_decide (w : Word) : cmdTm w = decide (w.toNat / 2 ^ 9 % 2 = 1) := getLsbD_eq_decide_div w 9

theorem cmdDigits_toNat (w : Word) : (cmdDigits w).toNat = w.toNat / 2 ^ 16 % 128 := extractLsb'_toNat_eq_div w 16 7

theorem cmdReserved_eq_true_iff (w : Word) : cmdReserved w = true ↔ w &&& 0xFF80FCF0#32 ≠ 0 := by
  rw [← Bool.not_eq_false, not_congr (cmdReserved_eq_false_iff w)]

/-- Settles O5: `RSV` by its mask, each field by its place in the word's value, and the word by its own fields. -/
theorem commandFieldsAndReservedMask : Obligations.CommandFieldsAndReservedMask := fun w =>
  ⟨cmdReserved_eq_true_iff w, cmdOp_toNat w, cmdKm_eq_decide w, cmdTm_eq_decide w, cmdDigits_toNat w, cmdWord_of_fields⟩

end Sys2Proof.Machine
end

section
/-!
SUPPORT. Key normalisation, one equation per branch (40_hmac.md R111, R112), and the two passes as hashes of byte maps of the
normalised key (40_hmac.md R113 to R117).
-/

namespace Sys2Proof.Machine

/-- A key that fits one block is padded in both modes (40_hmac.md R111). -/
theorem normKey_eq_pad {b : Build} {k : Bytes} (km : Bool) (h : k.length ≤ b.B) :
    normKey b km k = k ++ zeros (b.B - k.length) := by
  rw [normKey_of_le km h, fit_of_ge h]

theorem normKey_true_eq_take {b : Build} {k : Bytes} (h : b.B < k.length) : normKey b true k = k.take b.B := by
  rw [normKey_of_gt true h, if_pos rfl]

theorem normKey_false_eq_fit_hash {b : Build} {k : Bytes} (h : b.B < k.length) :
    normKey b false k = fit b.B (hash b k) := by
  rw [normKey_of_gt false h, if_neg Bool.false_ne_true]

theorem normKey_false_eq_hash_pad {b : Build} {k : Bytes} (h : b.B < k.length) (hL : b.L ≤ b.B) :
    normKey b false k = hash b k ++ zeros (b.B - b.L) := by
  rw [normKey_false_eq_fit_hash h, fit_of_ge ((hash_length b k).trans_le hL), hash_length]

theorem normKey_false_eq_hash_take {b : Build} {k : Bytes} (h : b.B < k.length) (hL : b.B < b.L) :
    normKey b false k = (hash b k).take b.B := by
  rw [normKey_false_eq_fit_hash h, fit_of_le (hL.le.trans_eq (hash_length b k).symm)]

/-- A key of one whole block is its own normal form (40_hmac.md R112). -/
theorem normKey_of_length {b : Build} {k : Bytes} (km : Bool) (h : k.length = b.B) : normKey b km k = k := by
  rw [normKey_of_le km h.le, fit_of_length h]

/-- Settles O50: one equation per branch, and a normalised key fills its block, so it is its own normal form. -/
theorem keyNormalisation : Obligations.KeyNormalisation := fun b km k =>
  ⟨normKey_eq_pad km, normKey_true_eq_take, normKey_false_eq_hash_pad, normKey_false_eq_hash_take,
    normKey_length b km k, normKey_of_length km (normKey_length b km k)⟩

theorem innerPass_eq_hash_map {b : Build} {k' : Bytes} (m : Bytes) (h : k'.length = b.B) :
    innerPass b k' m = hash b (k'.map (· ^^^ 0x36) ++ m) := by
  rw [innerPass, ipad, xorBytes_rep _ h]

theorem outerPass_eq_hash_map {b : Build} {k' : Bytes} (inner : Bytes) (h : k'.length = b.B) :
    outerPass b k' inner = hash b (k'.map (· ^^^ 0x5C) ++ inner) := by
  rw [outerPass, opad, xorBytes_rep _ h]

/-- The tag has length `L` for every key and message (40_hmac.md R117). -/
theorem hmac_length (b : Build) (km : Bool) (k m : Bytes) : (hmac b km k m).length = b.L :=
  outerPass_length b (normKey b km k) (innerPass b (normKey b km k) m)

/-- Settles O51: the normalised key has one byte for each byte of a pad, so each pass hashes a byte map of it. -/
theorem hmacIsTheTwoPassDigest : Obligations.HmacIsTheTwoPassDigest := by
  intro b km k m
  have hk : (normKey b km k).length = b.B := normKey_length b km k
  refine ⟨?_, hmac_length b km k m⟩
  rw [hmac, innerPass_eq_hash_map m hk, outerPass_eq_hash_map _ hk]

end Sys2Proof.Machine
end

section
/-!
SUPPORT. The two truncations in arithmetic: the answer of `hotpCode` in each mode, each digit by its place, and the offset, the window
and the 31-bit extract of the RFC scheme as numbers (41_hotp.md R142, R145 to R150).
-/

namespace Sys2Proof.Machine

theorem hotpCode_prefix {L n : Nat} (d : Bytes) (h : validDigits L true n = true) :
    hotpCode L true n d = some (prefixCode n d, 0) := by
  rw [hotpCode, if_pos h, if_pos rfl]

theorem hotpCode_rfc {L n : Nat} (d : Bytes) (h : validDigits L false n = true) :
    hotpCode L false n d = some (decimalDigits n (rfcValue L n d), BitVec.ofNat 32 (rfcValue L n d)) := by
  rw [hotpCode, if_pos h, if_neg Bool.false_ne_true]

theorem byteAt_prefixCode_toNat {n j : Nat} (d : Bytes) (h : j < n) :
    (byteAt (prefixCode n d) j).toNat = (byteAt d j).toNat % 10 := by
  rw [prefixCode, byteAt_map_range n j _ h, toNat_ofNat_mod_ten]

theorem byteAt_decimalDigits_toNat {n j : Nat} (c : Nat) (h : j < n) :
    (byteAt (decimalDigits n c) j).toNat = c / 10 ^ (n - 1 - j) % 10 := by
  rw [decimalDigits, byteAt_map_range n j _ h, toNat_ofNat_mod_ten]

/-- Settles O54: a valid count gives the prefix code, whose digits are the tag bytes mod 10. -/
theorem prefixTruncation : Obligations.PrefixTruncation := by
  intro L n d _ hn hL
  have hv : validDigits L true n = true := (validDigits_prefix L n).mpr ⟨hn, hL⟩
  exact ⟨prefixCode n d, hotpCode_prefix d hv, prefixCode_length n d, fun _ hj => byteAt_prefixCode_toNat d hj⟩

/-- The offset is the low nibble of the last byte (41_hotp.md R145). -/
theorem rfcOffset_eq_mod (L : Nat) (d : Bytes) : rfcOffset L d = (byteAt d (L - 1)).toNat % 16 := by
  rw [rfcOffset, BitVec.toNat_and]
  exact Nat.and_two_pow_sub_one_eq_mod _ 4

/-- The window never reads past a tag of at least 19 bytes (41_hotp.md R145, R146). -/
theorem rfcOffset_add_three_lt {L : Nat} (d : Bytes) (h : 19 ≤ L) : rfcOffset L d + 3 < L := by
  rw [rfcOffset_eq_mod]
  omega

/-- The mask of the sign bit leaves the window mod 2^31 (41_hotp.md R147). -/
theorem rfcExtract_eq_mod (L : Nat) (d : Bytes) : rfcExtract L d = (rfcWindow L d).toNat % 2 ^ 31 := by
  rw [rfcExtract, BitVec.toNat_and]
  exact Nat.and_two_pow_sub_one_eq_mod _ 31

/-- The window as the big-endian number of its four bytes (41_hotp.md R146). -/
theorem rfcWindow_toNat (L : Nat) (d : Bytes) :
    (rfcWindow L d).toNat = (byteAt d (rfcOffset L d)).toNat * 2 ^ 24 + (byteAt d (rfcOffset L d + 1)).toNat * 2 ^ 16 +
      (byteAt d (rfcOffset L d + 2)).toNat * 2 ^ 8 + (byteAt d (rfcOffset L d + 3)).toNat :=
  word4_toNat ..

/-- The code of every tag fits 31 bits, whatever the digit count (41_hotp.md R148). -/
theorem rfcValue_lt (L n : Nat) (d : Bytes) : rfcValue L n d < 2 ^ 31 :=
  calc rfcValue L n d ≤ rfcExtract L d := Nat.mod_le _ _
    _ < 2 ^ 31 := by
      rw [rfcExtract_eq_mod]
      exact Nat.mod_lt _ (by decide)

/-- CODE_BIN holds the code itself, with no bit cut off (41_hotp.md R150). -/
theorem ofNat_rfcValue_toNat (L n : Nat) (d : Bytes) : (BitVec.ofNat 32 (rfcValue L n d)).toNat = rfcValue L n d := by
  rw [BitVec.toNat_ofNat, Nat.mod_eq_of_lt ((rfcValue_lt L n d).trans (by decide))]

/-- The code in arithmetic on the window bytes (41_hotp.md R146 to R148). -/
theorem rfcValue_eq (L n : Nat) (d : Bytes) :
    rfcValue L n d =
      ((byteAt d (rfcOffset L d)).toNat * 2 ^ 24 + (byteAt d (rfcOffset L d + 1)).toNat * 2 ^ 16 +
        (byteAt d (rfcOffset L d + 2)).toNat * 2 ^ 8 + (byteAt d (rfcOffset L d + 3)).toNat) % 2 ^ 31 % 10 ^ n := by
  rw [rfcValue, rfcExtract_eq_mod, rfcWindow_toNat]

/-- Settles O55: the offset, the code and its digits are the model's own, each equal to its arithmetic form. -/
theorem rfcDynamicTruncation : Obligations.RfcDynamicTruncation := by
  intro L n d _ hL hn hn'
  have hv : validDigits L false n = true := (validDigits_rfc L n).mpr ⟨hn, hn'⟩
  exact ⟨rfcOffset L d, rfcValue L n d, decimalDigits n (rfcValue L n d),
    rfcOffset_eq_mod L d, rfcOffset_add_three_lt d hL, rfcValue_eq L n d,
    hotpCode_rfc d hv, ofNat_rfcValue_toNat L n d,
    decimalDigits_length n _, fun _ hj => byteAt_decimalDigits_toNat _ hj⟩

end Sys2Proof.Machine
end

section
/-!
SUPPORT. A CMD write, outcome by outcome: the rejection every one shares while busy, and the answer of each command while idle
(42_commands.md R170 to R181).
-/

namespace Sys2Proof.Machine

/-- The two kinds of illegal word, by the mask and the arithmetic of the word's value (30_encoding.md R83, R87). -/
theorem illegalWord_iff (w : Word) : IllegalWord w ↔ w &&& 0xFF80FCF0#32 ≠ 0 ∨ 7 ≤ w.toNat % 16 := by
  rw [IllegalWord, cmdReserved_eq_true_iff, cmdOp_toNat]

theorem decodeCommand_of_illegalWord {w : Word} (h : IllegalWord w) : decodeCommand w = .illegal w := by
  rcases decodeCommand_cases w with ⟨-, hd⟩ | ⟨hr, hop⟩
  · exact hd
  · rcases h with h | h
    · exact absurd (hr.symm.trans h) Bool.false_ne_true
    · omega

/-- The word of an accepted command is the word written, whatever the ignored fields hold (30_encoding.md R82, 10_state.md R20). -/
theorem cmdWord_of_opcode {w : Word} (op : BitVec 4) (hr : cmdReserved w = false) (ho : (cmdOp w).toNat = op.toNat) :
    cmdWord op (cmdKm w) (cmdTm w) (cmdDigits w) = w := by
  rw [← BitVec.eq_of_toNat_eq ho, cmdWord_of_fields hr]

/-- The BUSY check comes before every other (42_commands.md R170). -/
theorem exec_decodeCommand_of_busy (w : Word) {s : State} (hb : s.busy = true) :
    exec (decodeCommand w) s = .next { s with err := 4 } := by
  rcases decodeCommand_cases w with ⟨-, h⟩ |
    ⟨-, ⟨-, h⟩ | ⟨-, h⟩ | ⟨-, h⟩ | ⟨-, h⟩ | ⟨-, h⟩ | ⟨-, h⟩ | ⟨-, h⟩⟩ <;> rw [h] <;> exact unlessBusy_of_busy _ hb

section
variable {s : State} (hb : s.busy = false)
include hb

theorem exec_illegal_of_idle (w : Word) : exec (.illegal w) s = .next { s with err := 1, done := true } :=
  unlessBusy_of_idle _ hb

theorem exec_nop_of_idle (km tm : Bool) (n : BitVec 7) :
    exec (.nop km tm n) s = .next { s with pend := cmdWord 0 km tm n, done := true, err := 0 } :=
  unlessBusy_of_idle _ hb

theorem exec_hmac_of_idle (km tm : Bool) (n : BitVec 7) :
    exec (.hmac km tm n) s = .next (acceptBusy (cmdWord 1 km tm n) (dropTag s)) :=
  unlessBusy_of_idle _ hb

theorem exec_hotp_of_idle (km tm : Bool) (n : BitVec 7) :
    exec (.hotp km tm n) s = .next
      (if validDigits s.build.L tm n.toNat then acceptBusy (cmdWord 2 km tm n) (dropTag s)
       else failCmd .invalidDigits s) :=
  unlessBusy_of_idle _ hb

theorem exec_trunc_of_idle (km tm : Bool) (n : BitVec 7) :
    exec (.trunc km tm n) s = .next
      (if validDigits s.build.L tm n.toNat then
         if s.dvalid then acceptBusy (cmdWord 3 km tm n) s else failCmd .noDigest s
       else failCmd .invalidDigits s) :=
  unlessBusy_of_idle _ hb

theorem exec_clrkey_of_idle (km tm : Bool) (n : BitVec 7) :
    exec (.clrkey km tm n) s = .next { s with key := [], pend := cmdWord 4 km tm n, done := true, err := 0 } :=
  unlessBusy_of_idle _ hb

theorem exec_clrmsg_of_idle (km tm : Bool) (n : BitVec 7) :
    exec (.clrmsg km tm n) s = .next { s with msg := [], pend := cmdWord 5 km tm n, done := true, err := 0 } :=
  unlessBusy_of_idle _ hb

theorem exec_zeroize_of_idle (km tm : Bool) (n : BitVec 7) :
    exec (.zeroize km tm n) s = .next (acceptImmediate (cmdWord 6 km tm n) (zeroizeState s)) :=
  unlessBusy_of_idle _ hb

end

/-- Settles O22: such a word is an illegal one, and its CMD write is the row ILLEGAL it decodes to. -/
theorem illegalWordsFail : Obligations.IllegalWordsFail := by
  intro w s h
  have hd : decodeCommand w = .illegal w := decodeCommand_of_illegalWord ((illegalWord_iff w).mpr h)
  refine ⟨hd, fun hb => ⟨exec_illegal_of_idle hb w, ?_⟩⟩
  rw [exec_wrCmd, hd]
  exact exec_illegal_of_idle hb w

/-- Settles O23: while busy every word is rejected; while idle the word's row settles each check of the chain. -/
theorem cmdWriteProcessing : Obligations.CmdWriteProcessing := by
  intro w s
  rw [exec_wrCmd]
  by_cases hb : s.busy = true
  · rw [if_pos hb, exec_decodeCommand_of_busy w hb]
  · rw [if_neg hb]
    rw [Bool.not_eq_true] at hb
    rcases decodeCommand_cases w with ⟨hw, h⟩ |
      ⟨hr, ⟨ho, h⟩ | ⟨ho, h⟩ | ⟨ho, h⟩ | ⟨ho, h⟩ | ⟨ho, h⟩ | ⟨ho, h⟩ | ⟨ho, h⟩⟩ <;> rw [h]
    · rw [exec_illegal_of_idle hb, if_pos hw]
    · rw [exec_nop_of_idle hb, cmdWord_of_opcode 0 hr ho]
      simp [hr, ho]
    · rw [exec_hmac_of_idle hb, cmdWord_of_opcode 1 hr ho]
      simp [hr, ho, acceptBusy, dropTag, errBits]
    · rw [exec_hotp_of_idle hb, cmdWord_of_opcode 2 hr ho]
      by_cases hv : validDigits s.build.L (cmdTm w) (cmdDigits w).toNat = true
      · simp [hr, ho, hv, acceptBusy, dropTag, errBits]
      · simp [hr, ho, hv, failCmd, errBits]
    · rw [exec_trunc_of_idle hb, cmdWord_of_opcode 3 hr ho]
      by_cases hv : validDigits s.build.L (cmdTm w) (cmdDigits w).toNat = true
      · by_cases hd : s.dvalid = true
        · simp [hr, ho, hv, hd, acceptBusy, errBits]
        · simp [hr, ho, hv, hd, failCmd, errBits]
      · simp [hr, ho, hv, failCmd, errBits]
    · rw [exec_clrkey_of_idle hb, cmdWord_of_opcode 4 hr ho]
      simp [hr, ho]
    · rw [exec_clrmsg_of_idle hb, cmdWord_of_opcode 5 hr ho]
      simp [hr, ho]
    · rw [exec_zeroize_of_idle hb, cmdWord_of_opcode 6 hr ho]
      simp [hr, ho, acceptImmediate, zeroizeState, errBits]

end Sys2Proof.Machine
end

section
/-!
SUPPORT. The engine's turn while busy, one equation per command (42_commands.md R190 to R193).
-/

namespace Sys2Proof.Machine

theorem engineTurn_of_busy {s : State} (hb : s.busy = true) : engineTurn s = complete s := if_pos hb

theorem complete_of_hmac {s : State} (ho : (cmdOp s.pend).toNat = 1) : complete s = completeHmac s := by
  simp only [complete, ho]

theorem complete_of_hotp {s : State} (ho : (cmdOp s.pend).toNat = 2) : complete s = completeHotp s := by
  simp only [complete, ho]

theorem complete_of_trunc {s : State} (ho : (cmdOp s.pend).toNat = 3) : complete s = completeTrunc s := by
  simp only [complete, ho]

/-- The digit count of a running HOTP or TRUNC was checked, so every tag has a code (42_commands.md R192). -/
theorem StateInv.code_of_busy {s : State} (hi : StateInv s) (hb : s.busy = true) (ho : 2 ≤ (cmdOp s.pend).toNat) (d : Bytes) :
    ∃ digits cb, hotpCode s.build.L (cmdTm s.pend) (cmdDigits s.pend).toNat d = some (digits, cb) :=
  hotpCode_of_valid d (hi.busyDigits hb ho)

/-- Settles O25: the turn is the completion of HMAC, which has no check. -/
theorem completionOfHmac : Obligations.CompletionOfHmac := by
  intro s hb ho
  rw [engineTurn_of_busy hb, complete_of_hmac ho]
  rfl

/-- Settles O26: the turn is the completion of HOTP, and the code of the new tag exists. -/
theorem completionOfHotp : Obligations.CompletionOfHotp := by
  intro s hi hb ho
  obtain ⟨digits, cb, hc⟩ := hi.code_of_busy hb ho.ge (hmac s.build (cmdKm s.pend) s.key s.msg)
  refine ⟨digits, cb, hc, ?_⟩
  rw [engineTurn_of_busy hb, complete_of_hotp ho]
  simp only [completeHotp, hc, finish]

/-- Settles O27: the turn is the completion of TRUNC, and the code of the held tag exists. -/
theorem completionOfTrunc : Obligations.CompletionOfTrunc := by
  intro s hi hb ho
  obtain ⟨digits, cb, hc⟩ := hi.code_of_busy hb (by omega) s.dig
  refine ⟨digits, cb, hc, ?_⟩
  rw [engineTurn_of_busy hb, complete_of_trunc ho]
  simp only [completeTrunc, hc, finish]

end Sys2Proof.Machine
end

section
/-!
SUPPORT. A bus write, row by row: the indices whose writes are ignored, the two effects of a STATUS write apart, and the bytes of a
data port by their places in the word's value (43_bus.md R213 to R221).
-/

namespace Sys2Proof.Machine

/-- Seven registers take a write; every other word ignores it (43_bus.md R213). -/
theorem writeIgnored_of_notMem :
    ∀ idx : BitVec 6, idx ∉ [3#6, 4#6, 5#6, 9#6, 10#6, 11#6, 12#6] → writeIgnored idx = true := by
  decide

theorem decodeWrite_of_writeIgnored {idx : BitVec 6} (v : Word) (h : writeIgnored idx = true) :
    decodeWrite idx v = .wrNoEffect idx v := by
  unfold writeIgnored at h
  unfold decodeWrite
  cases hr : regAt idx with
  | ctrl | status | cmd | keyData8 | keyData32 | msgData8 | msgData32 =>
    rw [hr] at h
    exact absurd h Bool.false_ne_true
  | _ => rfl

/-- Settles O38: such a word ignores writes, so the decoder reads WR.NOEFFECT, whose meaning is the state itself. -/
theorem writesWithoutEffect : Obligations.WritesWithoutEffect := by
  intro idx v s hidx
  refine ⟨?_, rfl⟩
  rw [decode_write, decodeWrite_of_writeIgnored v (writeIgnored_of_notMem idx hidx)]

/-- Settles O39: index 3 is CTRL, whose write stores bit 0 whatever `busy` is; the line is read off the state after it. -/
theorem writeOfCtrl : Obligations.WriteOfCtrl := fun v _ => ⟨decode_write 3 v, _, rfl, rfl, rfl⟩

/-- Bit 1 of a STATUS write alone decides about DONE, and bit 15 alone about the error state (43_bus.md R217). -/
theorem exec_wrStatus_of_bits {v : Word} {ack clr : Bool} (h1 : v.getLsbD 1 = ack) (h15 : v.getLsbD 15 = clr) (s : State) :
    exec (.wrStatus v) s = .next
      { s with
        done := if ack then false else s.done
        err := if clr then 0 else s.err
        ovf := if clr then false else s.ovf
        bsyw := if clr then false else s.bsyw } := by
  subst h1 h15
  rfl

/-- Settles O40: index 4 is STATUS; each case is the one equation of its write at the two bits given. -/
theorem writeOfStatus : Obligations.WriteOfStatus := fun v s =>
  ⟨decode_write 4 v, fun h1 h15 => exec_wrStatus_of_bits h1 h15 s, fun h1 h15 => exec_wrStatus_of_bits h1 h15 s,
    fun h1 h15 => exec_wrStatus_of_bits h1 h15 s, fun h1 h15 => exec_wrStatus_of_bits h1 h15 s⟩

/-- A byte of a word is the quotient of the word's value by the weight of its first bit, cut to eight bits. -/
theorem extractLsb'_eq_ofNat_div (w : Word) (p : Nat) : w.extractLsb' p 8 = BitVec.ofNat 8 (w.toNat / 2 ^ p) := by
  rw [← Nat.shiftRight_eq_div_pow]
  rfl

theorem portByte_eq (v : Word) : portByte v = [BitVec.ofNat 8 v.toNat] := rfl

/-- The most significant byte is the first (20_memory.md R63). -/
theorem portWord_eq (v : Word) :
    portWord v =
      [BitVec.ofNat 8 (v.toNat / 2 ^ 24), BitVec.ofNat 8 (v.toNat / 2 ^ 16), BitVec.ofNat 8 (v.toNat / 2 ^ 8),
        BitVec.ofNat 8 v.toNat] := by
  simp only [portWord, extractLsb'_eq_ofNat_div, Nat.pow_zero, Nat.div_one]

/-- Settles O41: both key ports are the one all-or-nothing push, of one byte and of four. -/
theorem writesOfKeyData : Obligations.WritesOfKeyData := by
  intro v s
  have pushed8 : exec (.wrKeyData8 v) s = .next (pushKey (portByte v) s) := rfl
  have pushed32 : exec (.wrKeyData32 v) s = .next (pushKey (portWord v) s) := rfl
  refine ⟨decode_write 9 v, decode_write 10 v, ?_, ?_⟩
  · rw [pushed8, pushKey, portByte_length, portByte_eq]
  · rw [pushed32, pushKey, portWord_length, portWord_eq]

/-- Settles O42: both message ports are the one all-or-nothing push, of one byte and of four. -/
theorem writesOfMsgData : Obligations.WritesOfMsgData := by
  intro v s
  have pushed8 : exec (.wrMsgData8 v) s = .next (pushMsg (portByte v) s) := rfl
  have pushed32 : exec (.wrMsgData32 v) s = .next (pushMsg (portWord v) s) := rfl
  refine ⟨decode_write 11 v, decode_write 12 v, ?_, ?_⟩
  · rw [pushed8, pushMsg, portByte_length, portByte_eq]
  · rw [pushed32, pushMsg, portWord_length, portWord_eq]

end Sys2Proof.Machine
end

section
/-!
SUPPORT. The register window of the reset state: the sizes PARAM and CAP show as one number each, and every word past the three
constants (70_reset_and_hazards.md R293).
-/

namespace Sys2Proof.Machine

/-- Two 16-bit fields put together by shift and bitwise or, as R293 writes them, are their sum by weight. -/
theorem ofNat_or_shiftLeft_toNat {lo hi : Nat} (hlo : lo < 2 ^ 16) (hhi : hi < 2 ^ 16) :
    (BitVec.ofNat 32 (lo ||| hi <<< 16)).toNat = lo + hi * 2 ^ 16 := by
  rw [Nat.or_comm, ← Nat.shiftLeft_add_eq_or_of_lt hlo, Nat.shiftLeft_eq, BitVec.toNat_ofNat, Nat.mod_eq_of_lt (by omega),
    Nat.add_comm]

theorem view_param_eq_ofNat {s : State} (hB : s.build.B < 2 ^ 16) (hL : s.build.L < 2 ^ 8) :
    view s 1 = BitVec.ofNat 32 (s.build.B ||| s.build.L <<< 16) :=
  BitVec.eq_of_toNat_eq
    ((view_param_toNat hB hL).trans (ofNat_or_shiftLeft_toNat hB (hL.trans (by decide))).symm)

theorem view_cap_eq_ofNat {s : State} (hk : s.build.keyMax < 2 ^ 16) (hm : s.build.msgMax < 2 ^ 16) :
    view s 2 = BitVec.ofNat 32 (s.build.keyMax ||| s.build.msgMax <<< 16) :=
  BitVec.eq_of_toNat_eq ((view_cap_toNat hk hm).trans (ofNat_or_shiftLeft_toNat hk hm).symm)

/-- ID, PARAM and CAP are at no index past 2 (20_memory.md R66). -/
theorem regAt_ne_constant :
    ∀ idx : BitVec 6, 3 ≤ idx.toNat → regAt idx ≠ .id ∧ regAt idx ≠ .param ∧ regAt idx ≠ .cap := by
  decide

/-- STATUS shows nothing of the build, so the reset state of the reference build speaks for every build's. -/
theorem statusWord_resetOf (b : Build) : statusWord (State.resetOf b) = 0 :=
  calc
    statusWord (State.resetOf b) = statusWord State.reset := rfl
    _ = 0 := by decide

/-- The words that show no size of the build: the flags and lengths of the reset state are 0, its tag is zeros, its code is empty,
and the rest is write-only or reserved. -/
theorem view_resetOf_eq_zero (b : Build) {idx : BitVec 6} (h : 3 ≤ idx.toNat) : view (State.resetOf b) idx = 0 := by
  obtain ⟨hid, hparam, hcap⟩ := regAt_ne_constant idx h
  unfold view
  cases hr : regAt idx with
  | id => exact absurd hr hid
  | param => exact absurd hr hparam
  | cap => exact absurd hr hcap
  | status => exact statusWord_resetOf b
  | digest i => exact packBE_zeros b.L i
  | code i => exact packBE_nil i
  | _ => rfl

/-- Settles O13: PARAM and CAP are the build's sizes, which fit their fields in a valid build; every later word reads an element that
reset made 0, or none. -/
theorem registersAfterReset : Obligations.RegistersAfterReset := by
  refine ⟨fun b hv => ?_, rfl, rfl⟩
  obtain ⟨⟨-, hB⟩, ⟨-, hL⟩, ⟨-, hk⟩, ⟨-, hm⟩, -⟩ := (Build.valid_iff b).mp hv
  exact ⟨rfl, view_param_eq_ofNat (s := .resetOf b) (Nat.lt_succ_of_le hB) (hL.trans_lt (by decide)),
    view_cap_eq_ofNat (s := .resetOf b) (Nat.lt_succ_of_le hk) (Nat.lt_succ_of_le hm),
    fun _ h => view_resetOf_eq_zero b h, rfl⟩

end Sys2Proof.Machine
end

section
/-!
SUPPORT. The round trips of the decoder and the encoder: a command word put together from its fields, the row of a command word, and
the row of a bus write (30_encoding.md R80 to R90).
-/

namespace Sys2Proof.Machine

section
variable (km tm : Bool) (n : BitVec 7)

@[simp] theorem decodeCommand_cmdWord_nop : decodeCommand (cmdWord 0 km tm n) = .nop km tm n := by simp [decodeCommand]

@[simp] theorem decodeCommand_cmdWord_hmac : decodeCommand (cmdWord 1 km tm n) = .hmac km tm n := by simp [decodeCommand]

@[simp] theorem decodeCommand_cmdWord_hotp : decodeCommand (cmdWord 2 km tm n) = .hotp km tm n := by simp [decodeCommand]

@[simp] theorem decodeCommand_cmdWord_trunc : decodeCommand (cmdWord 3 km tm n) = .trunc km tm n := by simp [decodeCommand]

@[simp] theorem decodeCommand_cmdWord_clrkey : decodeCommand (cmdWord 4 km tm n) = .clrkey km tm n := by
  simp [decodeCommand]

@[simp] theorem decodeCommand_cmdWord_clrmsg : decodeCommand (cmdWord 5 km tm n) = .clrmsg km tm n := by
  simp [decodeCommand]

@[simp] theorem decodeCommand_cmdWord_zeroize : decodeCommand (cmdWord 6 km tm n) = .zeroize km tm n := by
  simp [decodeCommand]

end

/-- Settles O2: a command's word is decoded field by field, the seven writable registers have their own selectors, and the two
default rows hold what no other row matches. -/
theorem decodeOfEncodeIsTheInstruction : Obligations.DecodeOfEncodeIsTheInstruction := by
  intro i hi
  cases i with
  | nop km tm n => exact congrArg _ (decodeCommand_cmdWord_nop km tm n)
  | hmac km tm n => exact congrArg _ (decodeCommand_cmdWord_hmac km tm n)
  | hotp km tm n => exact congrArg _ (decodeCommand_cmdWord_hotp km tm n)
  | trunc km tm n => exact congrArg _ (decodeCommand_cmdWord_trunc km tm n)
  | clrkey km tm n => exact congrArg _ (decodeCommand_cmdWord_clrkey km tm n)
  | clrmsg km tm n => exact congrArg _ (decodeCommand_cmdWord_clrmsg km tm n)
  | zeroize km tm n => exact congrArg _ (decodeCommand_cmdWord_zeroize km tm n)
  | illegal w => exact congrArg _ (decodeCommand_of_illegalWord hi)
  | rd idx => exact decode_read idx 0
  | wrCtrl v => exact decode_write 3 v
  | wrStatus v => exact decode_write 4 v
  | wrCmd v => exact decode_write 5 v
  | wrKeyData8 v => exact decode_write 9 v
  | wrKeyData32 v => exact decode_write 10 v
  | wrMsgData8 v => exact decode_write 11 v
  | wrMsgData32 v => exact decode_write 12 v
  | wrNoEffect idx v => exact (decode_write idx v).trans (congrArg _ (decodeWrite_of_writeIgnored v hi))

/-- Settles O3: the row a word decodes to holds the word's own fields, which put the word together again. -/
theorem everyCommandWordIsOneRow : Obligations.EveryCommandWordIsOneRow := by
  intro w
  rcases decodeCommand_cases w with ⟨hw, h⟩ |
    ⟨hr, ⟨ho, h⟩ | ⟨ho, h⟩ | ⟨ho, h⟩ | ⟨ho, h⟩ | ⟨ho, h⟩ | ⟨ho, h⟩ | ⟨ho, h⟩⟩ <;> rw [h]
  · exact ⟨hw, rfl⟩
  · exact ⟨trivial, congrArg _ (cmdWord_of_opcode 0 hr ho)⟩
  · exact ⟨trivial, congrArg _ (cmdWord_of_opcode 1 hr ho)⟩
  · exact ⟨trivial, congrArg _ (cmdWord_of_opcode 2 hr ho)⟩
  · exact ⟨trivial, congrArg _ (cmdWord_of_opcode 3 hr ho)⟩
  · exact ⟨trivial, congrArg _ (cmdWord_of_opcode 4 hr ho)⟩
  · exact ⟨trivial, congrArg _ (cmdWord_of_opcode 5 hr ho)⟩
  · exact ⟨trivial, congrArg _ (cmdWord_of_opcode 6 hr ho)⟩

/-- The row of a bus write is well formed, and its encoding is the selector and the data word written (30_encoding.md R90). -/
theorem encode_decodeWrite (idx : BitVec 6) (v : Word) :
    (decodeWrite idx v).WellFormed ∧ encode (decodeWrite idx v) = .bus (selector true idx) v := by
  by_cases hidx : idx ∈ [3#6, 4#6, 5#6, 9#6, 10#6, 11#6, 12#6]
  · simp only [List.mem_cons, List.not_mem_nil, or_false] at hidx
    rcases hidx with rfl | rfl | rfl | rfl | rfl | rfl | rfl <;> exact ⟨trivial, rfl⟩
  · have ignored := writeIgnored_of_notMem idx hidx
    rw [decodeWrite_of_writeIgnored v ignored]
    exact ⟨ignored, rfl⟩

/-- Settles O4: every read is RD, and every write is the row of its word index. -/
theorem everySelectorIsOneRow : Obligations.EverySelectorIsOneRow := by
  intro write idx v
  cases write with
  | false => exact ⟨.rd idx, decode_read idx v, trivial, rfl⟩
  | true => exact ⟨decodeWrite idx v, decode_write idx v, encode_decodeWrite idx v⟩

/-- A command instruction with the fields of `w` is what `w` decodes to exactly when `w` matches the row of its opcode. -/
theorem rowMask_eq_iff_decodeCommand {w : Word} {i : Instr} (op : BitVec 4) (hi : i.WellFormed)
    (he : encode i = .cmdw (cmdWord op (cmdKm w) (cmdTm w) (cmdDigits w))) :
    w &&& 0xFF80FCFF#32 = op.setWidth 32 ↔ decodeCommand w = i := by
  constructor
  · intro h
    obtain ⟨hr, ho⟩ := (Laws.TableRow.rowMask_eq_iff w op).mp h
    have word : encode i = .cmdw w := by rw [he, ← ho, cmdWord_of_fields hr]
    have row : decode (.cmdw w) = .ok i := word ▸ decodeOfEncodeIsTheInstruction i hi
    exact Except.ok.inj row
  · intro h
    have word : encode i = .cmdw w := h ▸ (everyCommandWordIsOneRow w).2
    rw [← Encoded.cmdw.inj (he.symm.trans word), Laws.TableRow.rowMask_eq_iff]
    exact ⟨cmdReserved_cmdWord .., cmdOp_cmdWord ..⟩

/-- A word that matches none of the seven rows is ILLEGAL, and only such a word is (30_encoding.md R86, R90). -/
theorem rowMask_ne_iff_illegal (w : Word) :
    (∀ m : Word, m.toNat ≤ 6 → w &&& 0xFF80FCFF#32 ≠ m) ↔ decodeCommand w = .illegal w := by
  constructor
  · intro h
    rcases decodeCommand_cases w with ⟨-, hd⟩ | ⟨hr, hop⟩
    · exact hd
    · have small : ((cmdOp w).setWidth 32).toNat ≤ 6 := by
        rw [BitVec.toNat_setWidth_of_le (by decide)]
        omega
      exact absurd ((Laws.TableRow.rowMask_eq_iff w (cmdOp w)).mpr ⟨hr, rfl⟩) (h _ small)
  · intro h
    have illegal : IllegalWord w := (h ▸ (everyCommandWordIsOneRow w).1 : (Instr.illegal w).WellFormed)
    exact (Laws.TableRow.illegal w illegal).2

/-- Settles O6: one equivalence per row, between the row's mask and the decoder. -/
theorem commandRowsMatchTheirMasks : Obligations.CommandRowsMatchTheirMasks := fun w =>
  ⟨rowMask_eq_iff_decodeCommand 0 trivial rfl, rowMask_eq_iff_decodeCommand 1 trivial rfl,
    rowMask_eq_iff_decodeCommand 2 trivial rfl, rowMask_eq_iff_decodeCommand 3 trivial rfl,
    rowMask_eq_iff_decodeCommand 4 trivial rfl, rowMask_eq_iff_decodeCommand 5 trivial rfl,
    rowMask_eq_iff_decodeCommand 6 trivial rfl, rowMask_ne_iff_illegal w⟩

/-- Settles O1: the decoder computes each of the written-out words. -/
theorem writtenOutWordsDecode : Obligations.WrittenOutWordsDecode := by
  unfold Obligations.WrittenOutWordsDecode
  decide

/-- The index of a register in the window (20_memory.md R66); a reserved word has no index of its own. -/
def regIndex : Reg → Nat
  | .id => 0
  | .param => 1
  | .cap => 2
  | .ctrl => 3
  | .status => 4
  | .cmd => 5
  | .keyLen => 6
  | .msgLen => 7
  | .codeBin => 8
  | .keyData8 => 9
  | .keyData32 => 10
  | .msgData8 => 11
  | .msgData32 => 12
  | .digest i => 16 + i
  | .code i => 32 + i
  | .reserved => 64

/-- `regIndex` undoes the address map on every word that is not reserved. -/
theorem regIndex_regAt : ∀ idx : BitVec 6, regAt idx = .reserved ∨ regIndex (regAt idx) = idx.toNat := by
  decide

theorem regAt_injective {i j : BitVec 6} (h : regAt i = regAt j) : i = j ∨ regAt i = .reserved := by
  rcases regIndex_regAt i with hi | hi
  · exact .inr hi
  · rcases regIndex_regAt j with hj | hj
    · exact .inr (h.trans hj)
    · exact .inl (BitVec.eq_of_toNat_eq (by rw [← hi, ← hj, h]))

/-- The low two bits of an address are ignored (20_memory.md R67). -/
theorem wordIndex_aligned (a : Nat) : wordIndex (a / 4 * 4) = wordIndex a := by
  rw [wordIndex, Nat.mul_div_cancel _ (by decide), wordIndex]

theorem wordIndex_base_add {base off : Nat} (hbase : base % 256 = 0) (hoff : off < 256) :
    (wordIndex (base + off)).toNat = off / 4 := by
  rw [wordIndex, BitVec.toNat_ofNat]
  omega

/-- Settles O7: the word index is bits [7:2] of the address, and the address map has a left inverse off the reserved words. -/
theorem addressDecode : Obligations.AddressDecode :=
  ⟨fun _ _ => wordIndex_base_add, fun a => congrArg Instr.rd (wordIndex_aligned a).symm,
    fun a v => congrArg (decodeWrite · v) (wordIndex_aligned a).symm, fun _ _ => regAt_injective⟩

end Sys2Proof.Machine
end

section
/-!
SUPPORT. The invariant, operation by operation: the inputs and the reporting flags, the results, acceptance and completion, each
under what it needs. A command that overwrites the code or the tag is read as acting on a state that has dropped it already, which is
a state of the invariant too.
-/

namespace Sys2Proof.Machine

/-- Every clause of the invariant holds of a state whose elements have their reset values (10_state.md R20). -/
theorem stateInv_resetOf {b : Build} (hv : b.valid = true) : StateInv (State.resetOf b) := by
  constructor <;> simp [State.resetOf, hv, cmdOp, cmdReserved]

/-- Settles O49: the reference build is one of the valid ones. -/
theorem resetMeetsTheInvariant : Obligations.ResetMeetsTheInvariant :=
  ⟨stateInv_resetOf Build.reference_valid, fun _ => stateInv_resetOf⟩

/-- No valid digit count exceeds the 64 bytes the code may hold (10_state.md R20). -/
theorem validDigits_le {b : Build} {tm : Bool} {n : Nat} (hv : b.valid = true) (h : validDigits b.L tm n = true) : n ≤ 64 := by
  obtain ⟨-, ⟨-, hL⟩, -⟩ := (Build.valid_iff b).mp hv
  cases tm with
  | false => exact ((validDigits_rfc b.L n).mp h).2.trans (by decide)
  | true => exact ((validDigits_prefix b.L n).mp h).2.trans hL

section
variable {s : State} (h : StateInv s)
include h

/-- The buffers within their capacities, DONE while no command runs, a defined error code: the rest of the invariant reads none of
the elements the host's transactions change. -/
theorem StateInv.inputs {key msg : Bytes} {done ovf bsyw ie : Bool} {err : BitVec 4} {schedule : List Event} {rdata : Word}
    (hk : key.length ≤ s.build.keyMax) (hm : msg.length ≤ s.build.msgMax) (hd : s.busy = true → done = false)
    (he : err.toNat ≤ 4) :
    StateInv { s with
      key := key, msg := msg, done := done, err := err, ovf := ovf, bsyw := bsyw, ie := ie, schedule := schedule
      rdata := rdata } :=
  { h with keyFits := hk, msgFits := hm, busyDone := hd, errCode := he }

theorem StateInv.withSchedule (schedule : List Event) : StateInv { s with schedule := schedule } :=
  h.inputs h.keyFits h.msgFits h.busyDone h.errCode

theorem StateInv.rejectBusy : StateInv (rejectBusy s) :=
  h.inputs h.keyFits h.msgFits h.busyDone (by decide)

theorem StateInv.writeStatus (v : Word) : StateInv (writeStatus v s) := by
  refine h.inputs h.keyFits h.msgFits (fun hb => ?_) ?_
  · rw [h.busyDone hb, ite_self]
  · split
    · decide
    · exact h.errCode

theorem StateInv.pushKey (bs : Bytes) : StateInv (pushKey bs s) := by
  rcases pushKey_cases bs s with ⟨-, hp⟩ | ⟨-, -, hp⟩ | ⟨-, fits, hp⟩ <;> rw [hp]
  · exact h.inputs h.keyFits h.msgFits h.busyDone h.errCode
  · exact h.inputs h.keyFits h.msgFits h.busyDone h.errCode
  · exact h.inputs (by rwa [List.length_append]) h.msgFits h.busyDone h.errCode

theorem StateInv.pushMsg (bs : Bytes) : StateInv (pushMsg bs s) := by
  rcases pushMsg_cases bs s with ⟨-, hp⟩ | ⟨-, -, hp⟩ | ⟨-, fits, hp⟩ <;> rw [hp]
  · exact h.inputs h.keyFits h.msgFits h.busyDone h.errCode
  · exact h.inputs h.keyFits h.msgFits h.busyDone h.errCode
  · exact h.inputs h.keyFits (by rwa [List.length_append]) h.busyDone h.errCode

theorem StateInv.clearKey : StateInv { s with key := [] } :=
  h.inputs (Nat.zero_le _) h.msgFits h.busyDone h.errCode

theorem StateInv.clearMsg : StateInv { s with msg := [] } :=
  h.inputs h.keyFits (Nat.zero_le _) h.busyDone h.errCode

/-- A state without a code (10_state.md R23(c)). -/
theorem StateInv.dropCode : StateInv { s with code := [], cbin := 0, cmode := false, cvalid := false } :=
  { h with
    busyCode := fun _ => rfl
    noCode := fun _ => ⟨rfl, rfl, rfl⟩
    codeNonempty := Bool.noConfusion
    codeTag := Bool.noConfusion
    codeOfTag := Bool.noConfusion
    codeDigits := by simp
    codeLength := by simp }

/-- A held code needs its tag, so only a state without a code may lose the tag (10_state.md R23(b), (e)). -/
theorem StateInv.dropTag (hb : s.busy = false) (hc : s.cvalid = false) : StateInv (dropTag s) :=
  { h with
    tagLength := zeros_length _
    busyTag := fun busy => absurd (hb.symm.trans busy) Bool.false_ne_true
    noTag := fun _ => rfl
    codeTag := fun held => absurd (hc.symm.trans held) Bool.false_ne_true
    codeOfTag := fun held => absurd (hc.symm.trans held) Bool.false_ne_true }

/-- A new tag, where no code is held that it would have to match (42_commands.md R191). -/
theorem StateInv.holdTag (hb : s.busy = false) (hc : s.cvalid = false) {d : Bytes} (hd : d.length = s.build.L) :
    StateInv { s with dig := d, dvalid := true } :=
  { h with
    tagLength := hd
    busyTag := fun busy => absurd (hb.symm.trans busy) Bool.false_ne_true
    noTag := Bool.noConfusion
    codeTag := fun _ => rfl
    codeOfTag := fun held => absurd (hc.symm.trans held) Bool.false_ne_true }

/-- The code of the held tag (42_commands.md R192, R193). -/
theorem StateInv.holdCode (hb : s.busy = false) (ht : s.dvalid = true) {tm : Bool} {n : Nat} {digits : Bytes} {cb : Word}
    (hc : hotpCode s.build.L tm n s.dig = some (digits, cb)) :
    StateInv { s with code := digits, cbin := cb, cmode := tm, cvalid := true } :=
  have length : digits.length = n := hotpCode_length hc
  have valid : validDigits s.build.L tm n = true := (hotpCode_some hc).1
  { h with
    busyCode := fun busy => absurd (hb.symm.trans busy) Bool.false_ne_true
    noCode := Bool.noConfusion
    codeNonempty := fun _ => length ▸ validDigits_pos valid
    codeTag := fun _ => ht
    codeOfTag := fun _ => length ▸ hc
    codeDigits := hotpCode_digits hc
    codeLength := length ▸ validDigits_le h.build valid }

/-- The end of a command (42_commands.md R190). -/
theorem StateInv.finish : StateInv (finish s) :=
  { h with
    busyOp := Bool.noConfusion
    busyDigits := Bool.noConfusion
    busyTag := Bool.noConfusion
    busyCode := Bool.noConfusion
    busyDone := Bool.noConfusion }

section
variable (hb : s.busy = false)
include hb

theorem StateInv.failCmd {e : ErrCode} (he : e = .illegalCmd ∨ e = .invalidDigits ∨ e = .noDigest) : StateInv (failCmd e s) := by
  refine h.inputs h.keyFits h.msgFits (fun busy => absurd (hb.symm.trans busy) Bool.false_ne_true) ?_
  rcases he with rfl | rfl | rfl <;> decide

/-- Any command word may be the last one accepted while no command runs (42_commands.md R173). -/
theorem StateInv.acceptImmediate {op : BitVec 4} (hop : op.toNat ≤ 6) (km tm : Bool) (n : BitVec 7) :
    StateInv (acceptImmediate (cmdWord op km tm n) s) :=
  { h with
    pendReserved := cmdReserved_cmdWord ..
    pendOp := by simpa using hop
    busyOp := fun busy => absurd (hb.symm.trans busy) Bool.false_ne_true
    busyDigits := fun busy => absurd (hb.symm.trans busy) Bool.false_ne_true
    busyTag := fun busy => absurd (hb.symm.trans busy) Bool.false_ne_true
    busyDone := fun busy => absurd (hb.symm.trans busy) Bool.false_ne_true
    errCode := Nat.zero_le 4 }

theorem StateInv.zeroizeState : StateInv (zeroizeState s) :=
  have cleared := h.dropCode.dropTag hb rfl
  cleared.inputs (Nat.zero_le _) (Nat.zero_le _) h.busyDone h.errCode

end

/-- Acceptance of a busy command: its digits were checked, and a tag is held exactly if it is TRUNC (42_commands.md R172, R177). -/
theorem StateInv.acceptBusy {op : BitVec 4} {km tm : Bool} {n : BitVec 7}
    (hop : op.toNat = 1 ∨ op.toNat = 2 ∨ op.toNat = 3) (hv : 2 ≤ op.toNat → validDigits s.build.L tm n.toNat = true)
    (ht : s.dvalid = true ↔ op.toNat = 3) : StateInv (acceptBusy (cmdWord op km tm n) s) :=
  { h.dropCode with
    pendReserved := cmdReserved_cmdWord ..
    pendOp := by simp only [acceptBusy_pend, cmdOp_cmdWord]; omega
    busyOp := fun _ => by simpa using hop
    busyDigits := fun _ => by simpa using hv
    busyTag := fun _ => by simpa using ht
    busyCode := fun _ => rfl
    busyDone := fun _ => rfl
    errCode := Nat.zero_le 4 }

/-- HMAC and HOTP are accepted by a state that holds neither code nor tag (42_commands.md R172). -/
theorem StateInv.acceptBusy_dropTag {op : BitVec 4} {km tm : Bool} {n : BitVec 7} (hb : s.busy = false)
    (hop : op.toNat = 1 ∨ op.toNat = 2) (hv : 2 ≤ op.toNat → validDigits s.build.L tm n.toNat = true) :
    StateInv (Machine.acceptBusy (cmdWord op km tm n) (Machine.dropTag s)) :=
  have cleared := h.dropCode.dropTag hb rfl
  cleared.acceptBusy (by omega) hv ⟨fun held => absurd held Bool.false_ne_true, fun trunc => by omega⟩

/-- A completion, read in two parts: the command ends without a code, and the state then holds the new tag, the code, or both. -/
theorem StateInv.complete {t : State} (hb : s.busy = true) (ht : complete s = .next t) : StateInv t := by
  have ended : StateInv (Machine.finish s) := h.finish
  have noCode : (Machine.finish s).cvalid = false := h.busyCode hb
  have tagLength : (hmac s.build (cmdKm s.pend) s.key s.msg).length = s.build.L := hmac_length ..
  rcases complete_next ht with ⟨-, rfl⟩ | ⟨-, digits, cb, hc, rfl⟩ | ⟨ho, digits, cb, hc, rfl⟩
  · have tagged := ended.holdTag rfl noCode tagLength
    exact tagged.clearKey.clearMsg
  · have tagged := ended.holdTag rfl noCode tagLength
    have coded := tagged.holdCode rfl rfl hc
    exact coded.clearKey.clearMsg
  · exact ended.holdCode rfl ((h.busyTag hb).mpr ho) hc

/-- No instruction leaves the invariant. -/
theorem StateInv.exec {i : Instr} {t : State} (ht : exec i s = .next t) : StateInv t := by
  have he := effect_of_exec ht
  generalize i.command = j at he
  cases he with
  | busy => exact h.rejectBusy
  | fail e hb _ he => exact h.failCmd hb he
  | nop km tm n hb => exact h.acceptImmediate hb (by decide) km tm n
  | hmac km tm n hb => exact h.acceptBusy_dropTag hb (.inl rfl) (by simp)
  | hotp km tm n hb hv => exact h.acceptBusy_dropTag hb (.inr rfl) fun _ => hv
  | trunc km tm n hb hv hd => exact h.acceptBusy (.inr (.inr rfl)) (fun _ => hv) (by simp [hd])
  | clrkey km tm n hb => exact h.clearKey.acceptImmediate hb (by decide) km tm n
  | clrmsg km tm n hb => exact h.clearMsg.acceptImmediate hb (by decide) km tm n
  | zeroize km tm n hb => exact (h.zeroizeState hb).acceptImmediate hb (by decide) km tm n
  | rd | wrCtrl => exact h.inputs h.keyFits h.msgFits h.busyDone h.errCode
  | wrStatus v => exact h.writeStatus v
  | wrKeyData8 | wrKeyData32 => exact h.pushKey _
  | wrMsgData8 | wrMsgData32 => exact h.pushMsg _
  | wrNoEffect => exact h

theorem StateInv.engineTurn {t : State} (ht : engineTurn s = .next t) : StateInv t := by
  rcases engineTurn_next ht with ⟨-, rfl⟩ | ⟨hb, ht⟩
  · exact h
  · exact h.complete hb ht

theorem StateInv.resetBlock : StateInv (resetBlock s) :=
  (stateInv_resetOf h.build).inputs (Nat.zero_le _) (Nat.zero_le _) (fun _ => rfl) (Nat.zero_le 4)

theorem StateInv.runEvent {e : Event} {t : State} (ht : runEvent e s = .next t) : StateInv t := by
  cases e with
  | host => exact h.exec ht
  | engine => exact h.engineTurn ht
  | reset => cases ht; exact h.resetBlock

theorem StateInv.step {t : State} (ht : step s = .next t) : StateInv t := by
  obtain ⟨-, ⟨-, ht⟩ | ⟨e, rest, -, ht⟩⟩ := step_next ht
  · exact h.engineTurn ht
  · exact (h.withSchedule rest).runEvent ht

end

/-- Settles O48: each kind of step, the transaction, the engine's turn and the reset, keeps the invariant. -/
theorem everyStepKeepsTheInvariant : Obligations.EveryStepKeepsTheInvariant := fun _ _ h ht => h.step ht

end Sys2Proof.Machine
end

section
/-!
SUPPORT. Each command as its own row: the round trip of its word, its answer while idle and its rejection while busy
(42_commands.md R170 to R180).
-/

namespace Sys2Proof.Machine

/-- Settles O15: its acceptance is all the effect it has, and the BUSY check comes first. -/
theorem nopOnlyReportsDone : Obligations.NopOnlyReportsDone := fun km tm n _ =>
  ⟨decodeCommand_cmdWord_nop km tm n, fun hb => exec_nop_of_idle hb km tm n, unlessBusy_of_busy _⟩

/-- Settles O16: acceptance of the word on the state that dropped its tag is the record the statement writes out. -/
theorem hmacIsAccepted : Obligations.HmacIsAccepted := fun km tm n _ hb => exec_hmac_of_idle hb km tm n

/-- Settles O17: the digit check decides between the two answers. -/
theorem hotpIsAcceptedOrFails : Obligations.HotpIsAcceptedOrFails := by
  intro km tm n s hb
  rw [exec_hotp_of_idle hb]
  constructor <;> intro hv <;> rw [hv] <;> rfl

/-- Settles O18: the digit check comes first, and then the check of the tag. -/
theorem truncIsAcceptedOrFails : Obligations.TruncIsAcceptedOrFails := by
  intro km tm n s hb
  rw [exec_trunc_of_idle hb]
  refine ⟨fun hv hd => ?_, fun hv hd => ?_, fun hv => ?_⟩
  · rw [if_pos hv, if_pos hd]
    rfl
  · rw [if_pos hv, if_neg (Bool.eq_false_iff.mp hd)]
    rfl
  · rw [if_neg (Bool.eq_false_iff.mp hv)]
    rfl

/-- Settles O19: the acceptance of its word on the state with an empty key, or the BUSY check. -/
theorem clrkeyEmptiesTheKey : Obligations.ClrkeyEmptiesTheKey := fun km tm n _ =>
  ⟨decodeCommand_cmdWord_clrkey km tm n, fun hb => exec_clrkey_of_idle hb km tm n, unlessBusy_of_busy _⟩

/-- Settles O20: the acceptance of its word on the state with an empty message, or the BUSY check. -/
theorem clrmsgEmptiesTheMessage : Obligations.ClrmsgEmptiesTheMessage := fun km tm n _ =>
  ⟨decodeCommand_cmdWord_clrmsg km tm n, fun hb => exec_clrmsg_of_idle hb km tm n, unlessBusy_of_busy _⟩

/-- While no command runs, an accepted ZEROIZE leaves the reset state but for `ie`, `done` and `pend` (42_commands.md R180). -/
theorem acceptImmediate_zeroizeState_of_idle {s : State} (hb : s.busy = false) (w : Word) :
    acceptImmediate w (zeroizeState s) =
      { State.resetOf s.build with ie := s.ie, done := true, pend := w, schedule := s.schedule, rdata := s.rdata } := by
  simp only [acceptImmediate, zeroizeState, State.resetOf, hb, errBits]

/-- Settles O21: no element but `ie`, `done` and `pend` is left that reset would change. -/
theorem zeroizeIsResetButForThreeElements : Obligations.ZeroizeIsResetButForThreeElements := by
  intro km tm n s
  refine ⟨decodeCommand_cmdWord_zeroize km tm n, fun hb => ?_, unlessBusy_of_busy _⟩
  rw [exec_zeroize_of_idle hb, acceptImmediate_zeroizeState_of_idle hb]

/-- Settles O24: WR.CMD and the decoder split the word alike, and every row makes the BUSY check first. -/
theorem cmdWriteIsItsCommand : Obligations.CmdWriteIsItsCommand := fun w s =>
  ⟨exec_wrCmd w s, exec_decodeCommand_of_busy w⟩

end Sys2Proof.Machine
end

section
/-!
SUPPORT. One step by the kind of its event, that none stops in a state of the invariant, and that none changes the build
(20_memory.md R71, 42_commands.md R190, 60_exceptions.md R260).
-/

namespace Sys2Proof.Machine

theorem decodeWrite_of_index_five {a : Nat} (v : Word) (ha : a / 4 % 64 = 5) : decodeWrite (wordIndex a) v = .wrCmd v := by
  have index : wordIndex a = 5 := BitVec.eq_of_toNat_eq ((BitVec.toNat_ofNat _ _).trans ha)
  rw [index]
  rfl

/-- A write to CMD runs the command its data word decodes to (43_bus.md R222). -/
theorem step_of_cmdWrite {s : State} {a : Nat} {v : Word} {rest : List Event} (hv : s.build.valid = true)
    (hs : s.schedule = .host (.write a v) :: rest) (ha : a / 4 % 64 = 5) :
    step s = exec (decodeCommand v) { s with schedule := rest } := by
  rw [step_of_event hv hs, ← exec_wrCmd, ← decodeWrite_of_index_five v ha]
  rfl

/-- Settles O8: the selector of the transaction decodes to its instruction, and a CMD write is its command. -/
theorem stepRunsTheDecodedInstruction : Obligations.StepRunsTheDecodedInstruction := by
  intro s rest a v i hv
  refine ⟨fun hs hi => ?_, fun hs hi => ?_, fun hs ha hi => ?_⟩
  · rw [decode_read] at hi
    cases hi
    exact step_of_event hv hs
  · rw [decode_write] at hi
    cases hi
    exact step_of_event hv hs
  · cases hi
    exact step_of_cmdWrite hv hs ha

/-- Settles O9: the engine's turn is the event's meaning, and the meaning of the empty schedule. -/
theorem engineTurnIsCompleteWhenBusy : Obligations.EngineTurnIsCompleteWhenBusy := fun _ _ hv =>
  ⟨step_of_event hv, step_of_nil hv⟩

/-- Settles O12: a reset event is the reset of the block, whose line is low because `ie` is. -/
theorem resetSetsEveryElement : Obligations.ResetSetsEveryElement := fun _ _ hv hs =>
  ⟨_, step_of_event hv hs, rfl, rfl⟩

/-- A running command of the invariant has a completion: its opcode is one of three and its digits were checked. -/
theorem StateInv.complete_answers {s : State} (h : StateInv s) (hb : s.busy = true) : ∃ t, Machine.complete s = .next t := by
  rw [← engineTurn_of_busy hb]
  rcases h.busyOp hb with ho | ho | ho
  · exact ⟨_, completionOfHmac s hb ho⟩
  · obtain ⟨digits, cb, -, ht⟩ := completionOfHotp s h hb ho
    exact ⟨_, ht⟩
  · obtain ⟨digits, cb, -, ht⟩ := completionOfTrunc s h hb ho
    exact ⟨_, ht⟩

theorem StateInv.engineTurn_answers {s : State} (h : StateInv s) : ∃ t, Machine.engineTurn s = .next t := by
  cases hb : s.busy with
  | false => exact ⟨s, by rw [Machine.engineTurn, hb]; rfl⟩
  | true =>
    rw [engineTurn_of_busy hb]
    exact h.complete_answers hb

theorem StateInv.step_answers {s : State} (h : StateInv s) : ∃ t, Machine.step s = .next t := by
  cases hs : s.schedule with
  | nil =>
    rw [step_of_nil h.build hs]
    exact h.engineTurn_answers
  | cons e rest =>
    rw [step_of_event h.build hs]
    cases e with
    | host t =>
      obtain ⟨u, hu, -⟩ := exec_effect (transactionInstr t) { s with schedule := rest }
      exact ⟨u, hu⟩
    | engine => exact (h.withSchedule rest).engineTurn_answers
    | reset => exact ⟨_, rfl⟩

/-- An error report writes ERR and DONE alone, and an accepted command reports none (60_exceptions.md R262, R263). -/
theorem cmdWrite_error_frame {i : Instr} {s t : State} (hi : i.writesCmd = true) (ht : exec i s = .next t) (he : t.err ≠ 0) :
    t = { s with err := t.err, done := t.done } := by
  have effect := effect_of_exec ht
  rw [← command_writesCmd] at hi
  generalize i.command = j at effect hi
  cases effect with
  | busy | fail => rfl
  | nop | hmac | hotp | trunc | clrkey | clrmsg | zeroize => exact absurd rfl he
  | _ => exact absurd hi Bool.false_ne_true

/-- Settles O10: every instruction has an effect, every event of the invariant an answer, and an error report no buffer. -/
theorem theBlockNeverStops : Obligations.TheBlockNeverStops := by
  refine ⟨fun i s => ?_, fun s h => h.step_answers, fun i s t hi ht he => ?_⟩
  · obtain ⟨t, ht, -⟩ := exec_effect i s
    exact ⟨t, ht⟩
  · rw [cmdWrite_error_frame hi ht he]
    exact ⟨rfl, rfl, rfl, rfl, rfl, rfl, rfl, rfl⟩

/-- A push writes its buffer and the two drop flags alone (43_bus.md R218, R219). -/
theorem pushKey_frame (bs : Bytes) (s : State) :
    pushKey bs s = { s with key := (pushKey bs s).key, ovf := (pushKey bs s).ovf, bsyw := (pushKey bs s).bsyw } := by
  rcases pushKey_cases bs s with ⟨-, h⟩ | ⟨-, -, h⟩ | ⟨-, -, h⟩ <;> rw [h]

/-- A push writes its buffer and the two drop flags alone (43_bus.md R220, R221). -/
theorem pushMsg_frame (bs : Bytes) (s : State) :
    pushMsg bs s = { s with msg := (pushMsg bs s).msg, ovf := (pushMsg bs s).ovf, bsyw := (pushMsg bs s).bsyw } := by
  rcases pushMsg_cases bs s with ⟨-, h⟩ | ⟨-, -, h⟩ | ⟨-, -, h⟩ <;> rw [h]

theorem exec_build {i : Instr} {s t : State} (ht : exec i s = .next t) : t.build = s.build := by
  have effect := effect_of_exec ht
  generalize i.command = j at effect
  cases effect with
  | wrKeyData8 | wrKeyData32 => rw [pushKey_frame]
  | wrMsgData8 | wrMsgData32 => rw [pushMsg_frame]
  | _ => rfl

theorem engineTurn_build {s t : State} (ht : engineTurn s = .next t) : t.build = s.build := by
  rcases engineTurn_next ht with ⟨-, rfl⟩ | ⟨-, ht⟩
  · rfl
  · obtain ⟨-, -, -, -, hB, -⟩ := complete_finished ht
    exact hB

theorem runEvent_build {e : Event} {s t : State} (ht : runEvent e s = .next t) : t.build = s.build := by
  cases e with
  | host => exact exec_build ht
  | engine => exact engineTurn_build ht
  | reset => cases ht; rfl

theorem step_build {s t : State} (ht : step s = .next t) : t.build = s.build := by
  obtain ⟨-, ⟨-, ht⟩ | ⟨e, rest, -, ht⟩⟩ := step_next ht
  · exact engineTurn_build ht
  · exact (runEvent_build ht :)

/-- ID, PARAM and CAP show the build alone (10_state.md R27 to R29). -/
theorem view_constants_of_build_eq {s t : State} (h : t.build = s.build) :
    view t 0 = view s 0 ∧ view t 1 = view s 1 ∧ view t 2 = view s 2 := by
  refine ⟨rfl, ?_, ?_⟩
  · change 0#8 ++ BitVec.ofNat 8 t.build.L ++ BitVec.ofNat 16 t.build.B =
      0#8 ++ BitVec.ofNat 8 s.build.L ++ BitVec.ofNat 16 s.build.B
    rw [h]
  · change (BitVec.ofNat 16 t.build.msgMax ++ BitVec.ofNat 16 t.build.keyMax : BitVec (16 + 16)) =
      BitVec.ofNat 16 s.build.msgMax ++ BitVec.ofNat 16 s.build.keyMax
    rw [h]

/-- Settles O11: the check comes before every event, and every event keeps the field. -/
theorem buildIsCheckedAndConstant : Obligations.BuildIsCheckedAndConstant := by
  refine ⟨fun s hv => ?_, fun s t ht => ⟨step_build ht, view_constants_of_build_eq (step_build ht)⟩⟩
  rw [step, hv]
  rfl

end Sys2Proof.Machine
end

section
/-!
SUPPORT. Runs of several steps: the host's transactions while a command runs, the completion after them, and the engine's turns after
a reset (42_commands.md R190, R194, 70_reset_and_hazards.md R292, R311).
-/

namespace Sys2Proof.Machine

/-- While a command runs, any number of transactions change nothing but the error state, DONE, IE and the host's last read
(42_commands.md R194). -/
theorem run_transactions_of_busy (ts : List Transaction) {s : State} {rest : List Event} (hv : s.build.valid = true)
    (hb : s.busy = true) (hs : s.schedule = ts.map .host ++ rest) :
    ∃ u, run ts.length s = .next u ∧ u.schedule = rest ∧
      u = { s with
        done := u.done, err := u.err, ovf := u.ovf, bsyw := u.bsyw, ie := u.ie, schedule := u.schedule
        rdata := u.rdata } := by
  induction ts generalizing s with
  | nil => exact ⟨s, rfl, hs, rfl⟩
  | cons tr ts ih =>
    have first : step s = exec (transactionInstr tr) { s with schedule := ts.map .host ++ rest } := step_of_event hv hs
    obtain ⟨t, ht, -⟩ := exec_effect (transactionInstr tr) { s with schedule := ts.map .host ++ rest }
    have frame := exec_of_busy (s := { s with schedule := ts.map .host ++ rest }) hb ht
    obtain ⟨u, hu, hrest, same⟩ :=
      ih (s := t) (by rw [frame]; exact hv) (by rw [frame]; exact hb) (by rw [frame])
    refine ⟨u, ?_, hrest, ?_⟩
    · rw [List.length_cons, run_succ_of_step _ (first.trans ht), hu]
    · rw [same, frame]

theorem run_one (s : State) : run 1 s = step s := by
  rw [run]
  cases step s <;> rfl

theorem run_add_of_run {s t : State} {k : Nat} (m : Nat) (h : run k s = .next t) : run (k + m) s = run m t := by
  induction k generalizing s with
  | zero => cases h; rw [Nat.zero_add]
  | succ k ih =>
    rw [Nat.add_right_comm, run]
    rw [run] at h
    split at h
    · exact ih h
    · cases h
    · cases h

/-- The engine's turn, when it comes, completes the running command (42_commands.md R190). -/
theorem step_engine_of_busy {s : State} {rest : List Event} (hv : s.build.valid = true) (hb : s.busy = true)
    (hs : s.schedule = .engine :: rest) : step s = complete { s with schedule := rest } :=
  (step_of_event hv hs).trans (if_pos hb)

/-- The completion at the end of a command's run is its immediate completion, but for what the host's transactions reported
(42_commands.md R194). -/
theorem run_to_completion (ts : List Transaction) {s u : State} {rest : List Event} (hv : s.build.valid = true)
    (hb : s.busy = true) (hs : s.schedule = ts.map .host ++ .engine :: rest) (hc : complete s = .next u) :
    ∃ t, run (ts.length + 1) s = .next t ∧ t.schedule = rest ∧
      t = { u with
        err := t.err, ovf := t.ovf, bsyw := t.bsyw, ie := t.ie, schedule := t.schedule, rdata := t.rdata } := by
  obtain ⟨w, hw, hrest, same⟩ := run_transactions_of_busy ts hv hb hs
  have turn : step w = complete { w with schedule := rest } :=
    step_engine_of_busy (by rw [same]; exact hv) (by rw [same]; exact hb) hrest
  have completed := complete_congr hc (u := { w with schedule := rest }) (by rw [same])
  exact ⟨_, (run_add_of_run 1 hw).trans ((run_one w).trans (turn.trans completed)), rfl, rfl⟩

/-- Settles O28: the completion after the transactions is the immediate one, but for what the host may change. -/
theorem hostCannotChangeARunningCommand : Obligations.HostCannotChangeARunningCommand := by
  intro s ts rest h hb hs
  obtain ⟨u, hu⟩ := h.complete_answers hb
  obtain ⟨t, ht, hrest, same⟩ := run_to_completion ts h.build hb hs hu
  obtain ⟨hbusy, hdone, -⟩ := complete_finished hu
  refine ⟨t, u, ht, hu, ?_⟩
  rw [same]
  exact ⟨rfl, rfl, rfl, rfl, rfl, rfl, rfl, rfl, rfl, hbusy, hdone, hrest⟩

/-- A CMD write, whatever the host does while its command runs, and the completion: one run (20_memory.md R71). -/
theorem run_command {s a u : State} {w : Word} (ts : List Transaction) {rest : List Event} (hv : s.build.valid = true)
    (hs : s.schedule = .host (.write 0x14 w) :: (ts.map .host ++ .engine :: rest))
    (ha : exec (decodeCommand w) { s with schedule := ts.map .host ++ .engine :: rest } = .next a)
    (hb : a.busy = true) (has : a.schedule = ts.map .host ++ .engine :: rest) (hc : complete a = .next u) :
    ∃ t, run (ts.length + 2) s = .next t ∧ t.schedule = rest ∧
      t = { u with
        err := t.err, ovf := t.ovf, bsyw := t.bsyw, ie := t.ie, schedule := t.schedule, rdata := t.rdata } := by
  have written : step s = .next a := (step_of_cmdWrite hv hs (by decide)).trans ha
  rw [run_succ_of_step _ written]
  exact run_to_completion ts ((congrArg Build.valid (exec_build ha)).trans hv) hb has hc

theorem complete_hotp_of_code {s : State} {digits : Bytes} {cb : Word} (ho : (cmdOp s.pend).toNat = 2)
    (hc : hotpCode s.build.L (cmdTm s.pend) (cmdDigits s.pend).toNat (hmac s.build (cmdKm s.pend) s.key s.msg) =
      some (digits, cb)) :
    complete s = .next (finish
      { s with
        dig := hmac s.build (cmdKm s.pend) s.key s.msg, dvalid := true, code := digits, cbin := cb
        cmode := cmdTm s.pend, cvalid := true, key := [], msg := [] }) := by
  rw [complete_of_hotp ho]
  simp only [completeHotp, hc]

theorem complete_trunc_of_code {s : State} {digits : Bytes} {cb : Word} (ho : (cmdOp s.pend).toNat = 3)
    (hc : hotpCode s.build.L (cmdTm s.pend) (cmdDigits s.pend).toNat s.dig = some (digits, cb)) :
    complete s = .next (finish { s with code := digits, cbin := cb, cmode := cmdTm s.pend, cvalid := true }) := by
  rw [complete_of_trunc ho]
  simp only [completeTrunc, hc]

/-- Settles O29: acceptance keeps the key and the message, and the completion is that of the word accepted. -/
theorem hmacFromWriteToTag : Obligations.HmacFromWriteToTag := by
  intro s km tm n ts rest h hb hs
  have accepted := exec_hmac_of_idle (s := { s with schedule := ts.map .host ++ .engine :: rest }) hb km tm n
  rw [← decodeCommand_cmdWord_hmac] at accepted
  have completed := complete_of_hmac
    (s := acceptBusy (cmdWord 1 km tm n) (dropTag { s with schedule := ts.map .host ++ .engine :: rest })) (by simp)
  obtain ⟨t, ht, hrest, same⟩ := run_command ts h.build hs accepted rfl rfl completed
  refine ⟨t, ht, ?_⟩
  rw [same]
  exact ⟨by simp, rfl, rfl, rfl, rfl, rfl, rfl, rfl, rfl, hrest⟩

/-- Settles O30: as for HMAC, with the code that the checked digit count has. -/
theorem hotpFromWriteToCode : Obligations.HotpFromWriteToCode := by
  intro s km tm n ts rest h hb hv hs
  have accepted := exec_hotp_of_idle (s := { s with schedule := ts.map .host ++ .engine :: rest }) hb km tm n
  rw [← decodeCommand_cmdWord_hotp, if_pos hv] at accepted
  obtain ⟨digits, cb, hc⟩ := hotpCode_of_valid (hmac s.build km s.key s.msg) hv
  have completed := complete_hotp_of_code
    (s := acceptBusy (cmdWord 2 km tm n) (dropTag { s with schedule := ts.map .host ++ .engine :: rest }))
    (by simp) (by simpa using hc)
  obtain ⟨t, ht, hrest, same⟩ := run_command ts h.build hs accepted rfl rfl completed
  refine ⟨t, ht, ?_⟩
  rw [same]
  exact ⟨by simp, rfl, hc, by simp, rfl, hotpCode_length hc, rfl, rfl, rfl, rfl, rfl, hrest⟩

/-- Settles O31: a held code is the code of the held tag, so its mode and length pass both checks and give it again. -/
theorem truncReproducesTheHeldCode : Obligations.TruncReproducesTheHeldCode := by
  intro s km n rest h hb hcode hn hs
  have held : hotpCode s.build.L s.cmode n.toNat s.dig = some (s.code, s.cbin) := hn ▸ h.codeOfTag hcode
  have accepted := exec_trunc_of_idle (s := { s with schedule := .engine :: rest }) hb km s.cmode n
  rw [← decodeCommand_cmdWord_trunc, if_pos (hotpCode_some held).1, if_pos (h.codeTag hcode)] at accepted
  have completed := complete_trunc_of_code
    (s := acceptBusy (cmdWord 3 km s.cmode n) { s with schedule := .engine :: rest }) (by simp) (by simpa using held)
  obtain ⟨t, ht, -, same⟩ := run_command [] h.build hs accepted rfl rfl completed
  refine ⟨t, ht, ?_⟩
  rw [same]
  exact ⟨rfl, rfl, by simp, rfl, rfl, h.codeTag hcode, rfl, rfl, rfl, rfl⟩

/-- Settles O32: the rejected write changes ERR alone, which no completion reads or writes. -/
theorem busyErrorOutlivesCompletion : Obligations.BusyErrorOutlivesCompletion := by
  intro s w rest h hb hs
  obtain ⟨u, hu⟩ := h.complete_answers hb
  obtain ⟨-, hdone, -, -, -, -, hovf, hbsyw, hie, hrdata⟩ := complete_finished hu
  have written : step s = .next { s with err := 4, schedule := .engine :: rest } :=
    (step_of_cmdWrite h.build hs (by decide)).trans (exec_decodeCommand_of_busy w hb)
  have turn := step_engine_of_busy (s := { s with err := 4, schedule := .engine :: rest }) h.build hb rfl
  have completed := complete_congr hu (u := { s with err := 4, schedule := rest }) rfl
  refine ⟨_, u, ?_, hu, rfl, hdone⟩
  rw [run_succ_of_step 1 written, run_one, turn, completed, ← hovf, ← hbsyw, ← hie, ← hrdata]

/-- Settles O33, by induction on the schedule: a transaction leaves the command running, and the engine's turn, scheduled or with
nothing else to come, ends it. -/
theorem runningCommandCompletes : Obligations.RunningCommandCompletes := by
  intro s h hb hr
  generalize hs : s.schedule = es at hr
  induction es generalizing s with
  | nil =>
    obtain ⟨t, ht⟩ := h.complete_answers hb
    obtain ⟨hbusy, hdone, hpend, -⟩ := complete_finished ht
    refine ⟨1, t, Nat.le_refl 1, ?_, hbusy, hdone, hpend⟩
    rw [run_one, step_of_nil h.build hs, engineTurn_of_busy hb, ht]
  | cons e rest ih =>
    have h' := h.withSchedule rest
    cases e with
    | host tr =>
      obtain ⟨t, ht, -⟩ := exec_effect (transactionInstr tr) { s with schedule := rest }
      have frame := exec_of_busy (s := { s with schedule := rest }) hb ht
      obtain ⟨k, u, hk, hu, hbusy, hdone, hpend⟩ :=
        ih t (h'.exec ht) (by rw [frame]; exact hb) (by rw [frame]) fun mem => hr (List.mem_cons_of_mem _ mem)
      refine ⟨k + 1, u, ?_, ?_, hbusy, hdone, ?_⟩
      · exact Nat.succ_le_succ hk
      · rw [run_succ_of_step k ((step_of_event h.build hs).trans ht), hu]
      · rw [hpend, frame]
    | engine =>
      obtain ⟨t, ht⟩ := h'.complete_answers hb
      obtain ⟨hbusy, hdone, hpend, -⟩ := complete_finished ht
      refine ⟨1, t, by omega, ?_, hbusy, hdone, hpend⟩
      rw [run_one, step_engine_of_busy h.build hb hs, ht]
    | reset => exact absurd (List.mem_cons_self ..) hr

/-- While no command runs, any number of turns of the engine change nothing but the schedule (42_commands.md R190, log 3). -/
theorem run_engine_of_idle (k : Nat) {s : State} (hv : s.build.valid = true) (hb : s.busy = false)
    (hs : s.schedule = List.replicate k .engine) : run k s = .next { s with schedule := [] } := by
  induction k generalizing s with
  | zero =>
    change s.schedule = [] at hs
    rw [← hs]
    rfl
  | succ k ih =>
    have turn : step s = .next { s with schedule := List.replicate k .engine } := by
      rw [step_of_event hv hs, runEvent, engineTurn, if_neg (Bool.eq_false_iff.mp hb)]
    rw [run_succ_of_step k turn]
    exact ih hv hb rfl

/-- Settles O14: after the reset no command runs, so the turns of the engine change nothing; and while one runs a transaction changes
neither BUSY nor the command word. -/
theorem onlyResetAbortsACommand : Obligations.OnlyResetAbortsACommand := by
  refine ⟨fun s k hv _ hs => ?_, fun i s t hb ht => ?_⟩
  · have reset : step s = .next (resetBlock { s with schedule := List.replicate k .engine }) := step_of_event hv hs
    refine ⟨_, (run_succ_of_step k reset).trans (run_engine_of_idle k hv rfl rfl), ?_⟩
    exact ⟨rfl, rfl, rfl, rfl, rfl, rfl, rfl⟩
  · rw [exec_of_busy hb ht]
    exact ⟨hb, rfl⟩

end Sys2Proof.Machine
end

section
/-!
SUPPORT. Reads, register by register: which words read 0, the lengths and sizes as numbers, and the packed bytes of DIGEST and CODE
(10_state.md R27 to R42, 20_memory.md R62, R69).
-/

namespace Sys2Proof.Machine

/-- The registers at the write-only and reserved words (20_memory.md R66). -/
theorem regAt_of_reads_zero :
    ∀ idx : BitVec 6, idx ∈ [5#6, 9#6, 10#6, 11#6, 12#6, 13#6, 14#6, 15#6] ∨ 48 ≤ idx.toNat →
      regAt idx ∈ [.cmd, .keyData8, .keyData32, .msgData8, .msgData32, .reserved] := by
  decide

/-- Write-only and reserved words read 0 (43_bus.md R210, R214). -/
theorem view_of_reads_zero (s : State) {idx : BitVec 6}
    (h : idx ∈ [5#6, 9#6, 10#6, 11#6, 12#6, 13#6, 14#6, 15#6] ∨ 48 ≤ idx.toNat) : view s idx = 0 := by
  have hr := regAt_of_reads_zero idx h
  simp only [List.mem_cons, List.not_mem_nil, or_false] at hr
  rcases hr with hr | hr | hr | hr | hr | hr <;> rw [view, hr]

/-- A length that fits 16 bits is read as it is (10_state.md R34, R35). -/
theorem setWidth_ofNat_of_lt {n : Nat} (h : n < 2 ^ 16) : (BitVec.ofNat 16 n).setWidth 32 = BitVec.ofNat 32 n := by
  apply BitVec.eq_of_toNat_eq
  rw [BitVec.toNat_setWidth, BitVec.toNat_ofNat, BitVec.toNat_ofNat, Nat.mod_eq_of_lt h]

theorem setWidth_ofBool (b : Bool) : (BitVec.ofBool b).setWidth 32 = if b then 1 else 0 := by
  cases b <;> rfl

theorem exec_rd_of_view {s : State} {idx : BitVec 6} {v : Word} (h : view s idx = v) :
    exec (.rd idx) s = .next { s with rdata := v } := by
  rw [← h]
  rfl

/-- Settles O34: every size and length fits its field in a state of the invariant. -/
theorem readsOfPlainRegisters : Obligations.ReadsOfPlainRegisters := by
  intro s h
  obtain ⟨⟨-, hB⟩, ⟨-, hL⟩, ⟨-, hk⟩, ⟨-, hm⟩, -⟩ := (Build.valid_iff s.build).mp h.build
  have keyLen : s.key.length < 2 ^ 16 := Nat.lt_succ_of_le (h.keyFits.trans hk)
  have msgLen : s.msg.length < 2 ^ 16 := Nat.lt_succ_of_le (h.msgFits.trans hm)
  refine ⟨rfl, ?_, ?_, ?_, ?_, ?_, rfl, fun idx hidx => ?_⟩
  · exact exec_rd_of_view (BitVec.toNat_eq_nat.mp (view_param_toNat (Nat.lt_succ_of_le hB) (hL.trans_lt (by decide)))).2
  · exact exec_rd_of_view (BitVec.toNat_eq_nat.mp (view_cap_toNat (Nat.lt_succ_of_le hk) (Nat.lt_succ_of_le hm))).2
  · exact exec_rd_of_view (setWidth_ofBool s.ie)
  · exact exec_rd_of_view (setWidth_ofNat_of_lt keyLen)
  · exact exec_rd_of_view (setWidth_ofNat_of_lt msgLen)
  · exact exec_rd_of_view (view_of_reads_zero s hidx)

/-- Settles O35: the word is the one STATUS is put together as, whose CLEN field holds any code of the invariant. -/
theorem readOfStatus : Obligations.ReadOfStatus := by
  intro s h
  obtain ⟨hbusy, hdone, hdvalid, hcvalid, hirq, hovf, hbsyw, h7, hcmode⟩ := statusWord_flags s
  obtain ⟨herr, h12, hclen, hop, h28⟩ := statusWord_fields s
  have clen : ((statusWord s).extractLsb' 16 7).toNat = s.code.length := by
    rw [hclen, BitVec.toNat_ofNat, Nat.mod_eq_of_lt (h.codeLength.trans_lt (by decide))]
  exact ⟨statusWord s, rfl, hbusy, hdone, hdvalid, hcvalid, hirq, hovf, hbsyw, h7, herr, h12, clen, hcmode, hop, h28⟩

/-- The indices of DIGESTi and CODEi (20_memory.md R66). -/
theorem regAt_results : ∀ i < 16, regAt (BitVec.ofNat 6 (16 + i)) = .digest i ∧ regAt (BitVec.ofNat 6 (32 + i)) = .code i := by
  decide

theorem packBE_of_length_le {bs : Bytes} {i : Nat} (h : bs.length ≤ 4 * i) : packBE bs i = 0 := by
  rw [packBE, byteAt_of_length_le h, byteAt_of_length_le (h.trans (by omega)), byteAt_of_length_le (h.trans (by omega)),
    byteAt_of_length_le (h.trans (by omega))]
  rfl

/-- The bytes of a packed word, most significant first, and 0 past the end (20_memory.md R62). -/
theorem packBE_bytes (bs : Bytes) (i : Nat) :
    (packBE bs i).extractLsb' 24 8 = bs.getD (4 * i) 0 ∧ (packBE bs i).extractLsb' 16 8 = bs.getD (4 * i + 1) 0 ∧
    (packBE bs i).extractLsb' 8 8 = bs.getD (4 * i + 2) 0 ∧ (packBE bs i).extractLsb' 0 8 = bs.getD (4 * i + 3) 0 ∧
    (bs.length ≤ 4 * i → packBE bs i = 0) := by
  obtain ⟨h0, h1, h2, h3⟩ :=
    word4_bytes (byteAt bs (4 * i)) (byteAt bs (4 * i + 1)) (byteAt bs (4 * i + 2)) (byteAt bs (4 * i + 3))
  exact ⟨h0, h1, h2, h3, packBE_of_length_le⟩

/-- Settles O36: each of the two windows shows word `i` of its buffer. -/
theorem readsOfDigestAndCode : Obligations.ReadsOfDigestAndCode := by
  intro s i hi
  obtain ⟨hd, hc⟩ := regAt_results i hi
  have digest : view s (BitVec.ofNat 6 (16 + i)) = packBE s.dig i := by rw [view, hd]
  have code : view s (BitVec.ofNat 6 (32 + i)) = packBE s.code i := by rw [view, hc]
  exact ⟨⟨_, exec_rd_of_view digest, packBE_bytes s.dig i⟩, ⟨_, exec_rd_of_view code, packBE_bytes s.code i⟩⟩

/-- A STATUS write clears the same bits again (43_bus.md R217). -/
theorem writeStatus_idem (v : Word) (s : State) : writeStatus v (writeStatus v s) = writeStatus v s := by
  simp only [writeStatus]
  cases v.getLsbD 1 <;> cases v.getLsbD 15 <;> rfl

/-- Settles O37: no register shows the host's last read, and both writes store what they stored before. -/
theorem readsAndControlWritesAreIdempotent : Obligations.ReadsAndControlWritesAreIdempotent := by
  refine ⟨fun idx s t ht => ?_, fun v s t ht => ?_, fun v s t ht => ?_⟩
  · cases ht
    rfl
  · cases ht
    rfl
  · cases ht
    exact congrArg Host.Outcome.next (writeStatus_idem v s)

/-- The indices of the two result windows (20_memory.md R66). -/
theorem regAt_result_windows :
    ∀ idx : BitVec 6,
      (32 ≤ idx.toNat → idx.toNat < 48 → regAt idx = .code (idx.toNat - 32)) ∧
      (16 ≤ idx.toNat → idx.toNat < 32 → regAt idx = .digest (idx.toNat - 16)) := by
  decide

/-- CLEN and CMODE are one byte of STATUS, 0 where there is no code (10_state.md R31). -/
theorem statusWord_codeByte {s : State} (hcode : s.code = []) (hmode : s.cmode = false) :
    (statusWord s).extractLsb' 16 8 = 0 := by
  obtain ⟨-, -, -, -, -, -, -, -, h23⟩ := statusWord_flags s
  obtain ⟨-, -, hclen, -⟩ := statusWord_fields s
  have clen : (statusWord s).extractLsb' 16 7 = 0 := by rw [hclen, hcode]; rfl
  rw [extractLsb'_eq_zero_iff]
  intro i hi
  by_cases h : i < 7
  · exact (extractLsb'_eq_zero_iff _ _ _).mp clen i h
  · rw [show 16 + i = 23 by omega, h23, hmode]

/-- Settles O47: while a command runs no code is held, and a tag only if it is TRUNC. -/
theorem resultsReadZeroWhileBusy : Obligations.ResultsReadZeroWhileBusy := by
  intro s h hb
  obtain ⟨hcode, hcbin, hcmode⟩ := h.noCode (h.busyCode hb)
  refine ⟨fun idx lo hi => ?_, hcbin, statusWord_codeByte hcode hcmode, fun hop idx lo hi => ?_⟩
  · rw [view, (regAt_result_windows idx).1 lo hi]
    simp only [hcode, packBE_nil]
  · have noTag : s.dvalid = false := Bool.eq_false_iff.mpr fun hd => hop ((h.busyTag hb).mp hd)
    rw [view, (regAt_result_windows idx).2 lo hi]
    simp only [h.noTag noTag, packBE_zeros]

end Sys2Proof.Machine
end

section
/-!
SUPPORT. Runs of pushes by 32-bit words, and the words of the sequence they leave (20_memory.md R63, 43_bus.md R219, R221).
-/

namespace Sys2Proof.Machine

/-- A byte past the first word of a sequence. -/
theorem packBE_portWord_append_succ (w : Word) (bs : Bytes) (i : Nat) : packBE (portWord w ++ bs) (i + 1) = packBE bs i := by
  have shift (j : Nat) : byteAt (portWord w ++ bs) (4 + j) = byteAt bs j := by
    rw [byteAt, byteAt, List.getD_append_right _ _ _ _ (by rw [portWord_length]; omega), portWord_length, Nat.add_sub_cancel_left]
  rw [packBE, packBE, show 4 * (i + 1) = 4 + 4 * i by omega, shift, Nat.add_assoc, shift, Nat.add_assoc, shift, Nat.add_assoc,
    shift]

theorem packBE_portWord_append_zero (w : Word) (bs : Bytes) : packBE (portWord w ++ bs) 0 = w := packBE_portWord w

/-- Word `i` of a sequence unpacked from words is word `i` of them (20_memory.md R63). -/
theorem packBE_flatMap_portWord (ws : List Word) (i : Nat) : packBE (ws.flatMap portWord) i = ws.getD i 0 := by
  induction ws generalizing i with
  | nil => exact packBE_nil i
  | cons w ws ih =>
    rw [List.flatMap_cons]
    cases i with
    | zero => exact packBE_portWord_append_zero w _
    | succ i => rw [packBE_portWord_append_succ, ih, List.getD_cons_succ]

theorem flatMap_portWord_length (ws : List Word) : (ws.flatMap portWord).length = 4 * ws.length := by
  induction ws with
  | nil => rfl
  | cons w ws ih => rw [List.flatMap_cons, List.length_append, ih, portWord_length, List.length_cons]; omega

/-- A run of writes to one address: where each write takes the state after the words `us` to the one after `us` and its own word, the
run ends in the state after all of them. -/
theorem run_writes {a : Nat} {after : List Word → State} {ws : List Word} (us vs : List Word) (hws : us ++ vs = ws)
    (hv : ∀ us, (after us).build.valid = true)
    (hw : ∀ us w vs es, us ++ w :: vs = ws →
      exec (decodeWrite (wordIndex a) w) { after us with schedule := es } = .next { after (us ++ [w]) with schedule := es }) :
    run vs.length { after us with schedule := vs.map fun w => .host (.write a w) } = .next { after ws with schedule := [] } := by
  induction vs generalizing us with
  | nil =>
    rw [List.append_nil] at hws
    rw [← hws]
    rfl
  | cons w vs ih =>
    have pushed := hw us w vs (vs.map fun w => .host (.write a w)) hws
    have first := step_of_event (s := { after us with schedule := (w :: vs).map fun w => .host (.write a w) }) (hv us) rfl
    rw [List.length_cons, run_succ_of_step _ (first.trans pushed)]
    exact ih (us ++ [w]) (by rw [List.append_assoc]; exact hws)

theorem pushKey_of_fits {bs : Bytes} {s : State} (hb : s.busy = false) (h : s.key.length + bs.length ≤ s.build.keyMax) :
    pushKey bs s = { s with key := s.key ++ bs } := by
  rw [pushKey, if_neg (Bool.eq_false_iff.mp hb), if_neg (Nat.not_lt.mpr h)]

theorem pushMsg_of_fits {bs : Bytes} {s : State} (hb : s.busy = false) (h : s.msg.length + bs.length ≤ s.build.msgMax) :
    pushMsg bs s = { s with msg := s.msg ++ bs } := by
  rw [pushMsg, if_neg (Bool.eq_false_iff.mp hb), if_neg (Nat.not_lt.mpr h)]

/-- One more word fits where all the words of the run fit. -/
theorem flatMap_portWord_length_add_le {us vs ws : List Word} {w : Word} {n : Nat} (hws : us ++ w :: vs = ws)
    (fits : 4 * ws.length ≤ n) : (us.flatMap portWord).length + (portWord w).length ≤ n := by
  rw [← hws, List.length_append, List.length_cons] at fits
  rw [flatMap_portWord_length, portWord_length]
  omega

theorem flatMap_portWord_concat (us : List Word) (w : Word) :
    (us ++ [w]).flatMap portWord = us.flatMap portWord ++ portWord w := by
  rw [List.flatMap_append, List.flatMap_singleton]

section
variable {s : State} {ws : List Word} (hv : s.build.valid = true) (hb : s.busy = false)
include hv hb

/-- A run of KEY_DATA32 writes that fit fills an empty key with the words' bytes (43_bus.md R219). -/
theorem run_pushKey (hk : s.key = []) (fits : 4 * ws.length ≤ s.build.keyMax)
    (hs : s.schedule = ws.map fun w => .host (.write 0x28 w)) :
    run ws.length s = .next { s with key := ws.flatMap portWord, schedule := [] } := by
  have all := run_writes (a := 0x28) (after := fun us => { s with key := us.flatMap portWord }) [] ws rfl (fun _ => hv)
    fun us w vs es hws => by
      rw [flatMap_portWord_concat]
      exact congrArg Host.Outcome.next (pushKey_of_fits hb (flatMap_portWord_length_add_le hws fits))
  rw [List.flatMap_nil, ← hk, ← hs] at all
  exact all

/-- A run of MSG_DATA32 writes that fit fills an empty message with the words' bytes (43_bus.md R221). -/
theorem run_pushMsg (hm : s.msg = []) (fits : 4 * ws.length ≤ s.build.msgMax)
    (hs : s.schedule = ws.map fun w => .host (.write 0x30 w)) :
    run ws.length s = .next { s with msg := ws.flatMap portWord, schedule := [] } := by
  have all := run_writes (a := 0x30) (after := fun us => { s with msg := us.flatMap portWord }) [] ws rfl (fun _ => hv)
    fun us w vs es hws => by
      rw [flatMap_portWord_concat]
      exact congrArg Host.Outcome.next (pushMsg_of_fits hb (flatMap_portWord_length_add_le hws fits))
  rw [List.flatMap_nil, ← hm, ← hs] at all
  exact all

end

/-- Settles O43: the pushes fill the buffer with the words' bytes, and packing undoes the unpacking. -/
theorem pushedWordsPackBack : Obligations.PushedWordsPackBack := fun _ ws hv hb =>
  ⟨fun hk fits hs =>
    ⟨_, run_pushKey hv hb hk fits hs, flatMap_portWord_length ws, fun i _ => packBE_flatMap_portWord ws i⟩,
    fun hm fits hs =>
    ⟨_, run_pushMsg hv hb hm fits hs, flatMap_portWord_length ws, fun i _ => packBE_flatMap_portWord ws i⟩⟩

end Sys2Proof.Machine
end

section
/-!
SUPPORT. The flags an instruction can move, read off its effect: the interrupt line (60_exceptions.md R270) and the error state
(R268).
-/

namespace Sys2Proof.Machine

theorem irq_eq_true_iff (s : State) : irq s = true ↔ s.ie = true ∧ s.done = true := by rw [irq, Bool.and_eq_true]

theorem irq_pushKey (bs : Bytes) (s : State) : irq (pushKey bs s) = irq s := by
  rw [pushKey_frame]
  rfl

theorem irq_pushMsg (bs : Bytes) (s : State) : irq (pushMsg bs s) = irq s := by
  rw [pushMsg_frame]
  rfl

/-- The instruction behind a command is the command itself or the CMD write of a word that decodes to it (43_bus.md R222). -/
theorem eq_or_decodes_of_command_eq {i j : Instr} (h : i.command = j) :
    i = j ∨ ∃ w, i = .wrCmd w ∧ decodeCommand w = j := by
  cases i with
  | wrCmd w => exact .inr ⟨w, rfl, h⟩
  | _ => exact .inl h

/-- An instruction that writes no command word is its own command. -/
theorem eq_of_command_eq {i j : Instr} (h : i.command = j) (hj : j.writesCmd = false) : i = j := by
  rcases eq_or_decodes_of_command_eq h with h | ⟨w, -, rfl⟩
  · exact h
  · exact absurd (hj.symm.trans (decodeCommand_command w).2) Bool.false_ne_true

/-- What raises the line: IE while DONE is 1, or DONE by a CMD write that leaves no command running (60_exceptions.md R270). -/
theorem exec_raises_irq {i : Instr} {s t : State} (ht : exec i s = .next t) (hs : irq s = false) (hi : irq t = true) :
    (∃ v, i = .wrCtrl v ∧ v.getLsbD 0 = true ∧ s.done = true) ∨
    (i.writesCmd = true ∧ s.busy = false ∧ s.ie = true ∧ t.busy = false) := by
  obtain ⟨hie, hdone⟩ := (irq_eq_true_iff t).mp hi
  have effect := effect_of_exec ht
  rw [← command_writesCmd]
  generalize hj : i.command = j at effect
  cases effect with
  | wrCtrl v => exact .inl ⟨v, eq_of_command_eq hj rfl, hie, hdone⟩
  | wrStatus v =>
    have kept : s.done = true := by
      rw [writeStatus_done] at hdone
      split at hdone
      · cases hdone
      · exact hdone
    exact absurd (hs.symm.trans ((irq_eq_true_iff s).mpr ⟨hie, kept⟩)) Bool.false_ne_true
  | wrKeyData8 | wrKeyData32 =>
    rw [irq_pushKey] at hi
    exact absurd (hs.symm.trans hi) Bool.false_ne_true
  | wrMsgData8 | wrMsgData32 =>
    rw [irq_pushMsg] at hi
    exact absurd (hs.symm.trans hi) Bool.false_ne_true
  | busy | rd | wrNoEffect => exact absurd (hs.symm.trans hi) Bool.false_ne_true
  | fail e hb hw => exact .inr ⟨hw, hb, hie, hb⟩
  | nop km tm n hb | clrkey km tm n hb | clrmsg km tm n hb | zeroize km tm n hb => exact .inr ⟨rfl, hb, hie, hb⟩
  | hmac | hotp | trunc => exact absurd hdone Bool.false_ne_true

/-- What lowers the line: IE, the acknowledgement of DONE, or the acceptance of a busy command (60_exceptions.md R270). -/
theorem exec_lowers_irq {i : Instr} {s t : State} (ht : exec i s = .next t) (hs : irq s = true) (hi : irq t = false) :
    (∃ v, i = .wrCtrl v ∧ v.getLsbD 0 = false) ∨ (∃ v, i = .wrStatus v ∧ v.getLsbD 1 = true) ∨
    (i.writesCmd = true ∧ s.busy = false ∧ t.busy = true) := by
  obtain ⟨hie, hdone⟩ := (irq_eq_true_iff s).mp hs
  have low : ¬ (t.ie = true ∧ t.done = true) := fun high =>
    absurd (hi.symm.trans ((irq_eq_true_iff t).mpr high)) Bool.false_ne_true
  have effect := effect_of_exec ht
  rw [← command_writesCmd]
  generalize hj : i.command = j at effect
  cases effect with
  | wrCtrl v => exact .inl ⟨v, eq_of_command_eq hj rfl, Bool.eq_false_iff.mpr fun h => low ⟨h, hdone⟩⟩
  | wrStatus v =>
    refine .inr (.inl ⟨v, eq_of_command_eq hj rfl, ?_⟩)
    by_contra h
    exact low ⟨hie, (if_neg h).trans hdone⟩
  | wrKeyData8 | wrKeyData32 =>
    rw [irq_pushKey] at hi
    exact absurd (hi.symm.trans hs) Bool.false_ne_true
  | wrMsgData8 | wrMsgData32 =>
    rw [irq_pushMsg] at hi
    exact absurd (hi.symm.trans hs) Bool.false_ne_true
  | busy | rd | wrNoEffect => exact absurd ⟨hie, hdone⟩ low
  | fail | nop | clrkey | clrmsg | zeroize => exact absurd ⟨hie, rfl⟩ low
  | hmac km tm n hb | hotp km tm n hb | trunc km tm n hb => exact .inr (.inr ⟨rfl, hb, rfl⟩)

/-- Settles O45: the two directions of a transaction, and a completion, which sets DONE and keeps IE. -/
theorem interruptRisesAndFalls : Obligations.InterruptRisesAndFalls := by
  refine ⟨fun i s t => exec_raises_irq, fun i s t => exec_lowers_irq, fun s t ht => ?_⟩
  obtain ⟨-, hdone, -, -, -, -, -, -, hie, -⟩ := complete_finished ht
  rw [irq, hdone, hie, Bool.and_true]

/-- One of the two drop flags, OVF and BSYW, was set in `s` and is not in `t` (60_exceptions.md R268). -/
def DropFlagCleared (s t : State) : Prop :=
  (s.ovf = true ∧ t.ovf = false) ∨ (s.bsyw = true ∧ t.bsyw = false)

theorem not_dropFlagCleared {s t : State} (ho : s.ovf = true → t.ovf = true) (hb : s.bsyw = true → t.bsyw = true) :
    ¬ DropFlagCleared s t := by
  rintro (⟨hs, ht⟩ | ⟨hs, ht⟩)
  · exact absurd (ht.symm.trans (ho hs)) Bool.false_ne_true
  · exact absurd (ht.symm.trans (hb hs)) Bool.false_ne_true

theorem pushKey_not_dropFlagCleared (bs : Bytes) (s : State) : ¬ DropFlagCleared s (pushKey bs s) := by
  rcases pushKey_cases bs s with ⟨-, h⟩ | ⟨-, -, h⟩ | ⟨-, -, h⟩ <;> rw [h]
  · exact not_dropFlagCleared id fun _ => rfl
  · exact not_dropFlagCleared (fun _ => rfl) id
  · exact not_dropFlagCleared id id

theorem pushMsg_not_dropFlagCleared (bs : Bytes) (s : State) : ¬ DropFlagCleared s (pushMsg bs s) := by
  rcases pushMsg_cases bs s with ⟨-, h⟩ | ⟨-, -, h⟩ | ⟨-, -, h⟩ <;> rw [h]
  · exact not_dropFlagCleared id fun _ => rfl
  · exact not_dropFlagCleared (fun _ => rfl) id
  · exact not_dropFlagCleared id id

/-- ERRCLR and an accepted ZEROIZE are all that clears a drop flag (60_exceptions.md R268). -/
theorem exec_clears_dropFlag {i : Instr} {s t : State} (ht : exec i s = .next t) (h : DropFlagCleared s t) :
    (∃ v, i = .wrStatus v ∧ v.getLsbD 15 = true) ∨
    (s.busy = false ∧ t.ovf = false ∧ t.bsyw = false ∧ t.err = 0 ∧
      ((∃ km tm n, i = .zeroize km tm n) ∨ ∃ w km tm n, i = .wrCmd w ∧ decodeCommand w = .zeroize km tm n)) := by
  have effect := effect_of_exec ht
  generalize hj : i.command = j at effect
  cases effect with
  | wrStatus v =>
    refine .inl ⟨v, eq_of_command_eq hj rfl, ?_⟩
    by_contra h15
    exact not_dropFlagCleared (fun ho => (if_neg h15).trans ho) (fun hb => (if_neg h15).trans hb) h
  | zeroize km tm n hb =>
    refine .inr ⟨hb, rfl, rfl, rfl, ?_⟩
    rcases eq_or_decodes_of_command_eq hj with hi | ⟨w, hi, hd⟩
    · exact .inl ⟨km, tm, n, hi⟩
    · exact .inr ⟨w, km, tm, n, hi, hd⟩
  | wrKeyData8 | wrKeyData32 => exact absurd h (pushKey_not_dropFlagCleared _ s)
  | wrMsgData8 | wrMsgData32 => exact absurd h (pushMsg_not_dropFlagCleared _ s)
  | _ => exact absurd h (not_dropFlagCleared id id)

/-- ERRCLR and the outcome of a CMD write while no command runs are all that clears ERR (60_exceptions.md R268). -/
theorem exec_clears_err {i : Instr} {s t : State} (ht : exec i s = .next t) (hs : s.err ≠ 0) (he : t.err = 0) :
    (∃ v, i = .wrStatus v ∧ v.getLsbD 15 = true) ∨ (i.writesCmd = true ∧ s.busy = false) := by
  have effect := effect_of_exec ht
  rw [← command_writesCmd]
  generalize hj : i.command = j at effect
  cases effect with
  | wrStatus v =>
    refine .inl ⟨v, eq_of_command_eq hj rfl, ?_⟩
    by_contra h15
    exact hs ((if_neg h15).symm.trans he)
  | busy => exact absurd he (by decide : (4 : BitVec 4) ≠ 0)
  | fail e hb hw => exact .inr ⟨hw, hb⟩
  | nop km tm n hb | hmac km tm n hb | hotp km tm n hb | trunc km tm n hb | clrkey km tm n hb | clrmsg km tm n hb
  | zeroize km tm n hb => exact .inr ⟨rfl, hb⟩
  | wrKeyData8 | wrKeyData32 =>
    rw [pushKey_frame] at he
    exact absurd he hs
  | wrMsgData8 | wrMsgData32 =>
    rw [pushMsg_frame] at he
    exact absurd he hs
  | rd | wrCtrl | wrNoEffect => exact absurd he hs

/-- Settles O46: what a transaction clears, that a completion writes none of the three, and the effect of ERRCLR. -/
theorem errorStateIsClearedOnlyAsStated : Obligations.ErrorStateIsClearedOnlyAsStated := by
  refine ⟨fun i s t => exec_clears_dropFlag, fun i s t => exec_clears_err, fun s t ht => ?_, fun v s t h15 ht => ?_⟩
  · obtain ⟨-, -, -, -, -, herr, hovf, hbsyw, -, -⟩ := complete_finished ht
    exact ⟨herr, hovf, hbsyw⟩
  · cases ht
    exact ⟨if_pos h15, if_pos h15, if_pos h15⟩

end Sys2Proof.Machine
end

section
/-!
SUPPORT. Keys with one normal form have one tag (40_hmac.md R118), and the digits of a code as a number: appending a digit, reducing
by a power of ten, and dropping the leading digits (41_hotp.md R148, R149).
-/

namespace Sys2Proof.Machine

/-- The key enters the tag through its normal form alone (40_hmac.md R117). -/
theorem hmac_congr_normKey {b : Build} {km km' : Bool} {k k' : Bytes} (m : Bytes) (h : normKey b km k = normKey b km' k') :
    hmac b km k m = hmac b km' k' m := by
  rw [hmac, hmac, h]

/-- Mode 1 uses the first block of the key, which mode 0 does not hash (40_hmac.md R111). -/
theorem normKey_true_eq_normKey_take (b : Build) (k : Bytes) : normKey b true k = normKey b false (k.take b.B) := by
  by_cases h : k.length ≤ b.B
  · rw [List.take_of_length_le h, normKey_of_le true h, normKey_of_le false h]
  · have h : b.B < k.length := Nat.not_le.mp h
    rw [normKey_true_eq_take h, normKey_of_length false (List.length_take_of_le h.le)]

theorem normKey_false_hash {b : Build} {k : Bytes} (h : b.B < k.length) (hL : b.L ≤ b.B) :
    normKey b false k = normKey b false (hash b k) := by
  rw [normKey_false_eq_fit_hash h, normKey_of_le false ((hash_length b k).trans_le hL)]

/-- Settles O52: in each case the two keys have one normal form. -/
theorem hmacKeyModes : Obligations.HmacKeyModes := fun b k m =>
  ⟨fun h => hmac_congr_normKey m ((normKey_of_le true h).trans (normKey_of_le false h).symm),
    hmac_congr_normKey m (normKey_true_eq_normKey_take b k), fun h hL => hmac_congr_normKey m (normKey_false_hash h hL)⟩

theorem hotpCode_eq_none_iff (L : Nat) (tm : Bool) (n : Nat) (d : Bytes) :
    hotpCode L tm n d = none ↔ validDigits L tm n = false := by
  cases hv : validDigits L tm n with
  | false => simp [hotpCode, hv]
  | true =>
    obtain ⟨digits, cb, hc⟩ := hotpCode_of_valid d hv
    simp [hc]

/-- Settles O53: the check of each mode, that it alone decides, and that no valid count exceeds 64. -/
theorem digitCountCheck : Obligations.DigitCountCheck := by
  intro b tm n d hb
  refine ⟨?_, hotpCode_eq_none_iff b.L tm n.toNat d, fun hn => ?_⟩
  · cases tm with
    | false => exact validDigits_rfc b.L n.toNat
    | true => exact validDigits_prefix b.L n.toNat
  · rw [hotpCode_eq_none_iff]
    exact Bool.eq_false_iff.mpr fun hv => absurd (validDigits_le hb hv) (Nat.not_le.mpr hn)

/-- The last digit is the number mod 10 and the others are those of its quotient (41_hotp.md R149). -/
theorem decimalDigits_succ (n c : Nat) : decimalDigits (n + 1) c = decimalDigits n (c / 10) ++ [BitVec.ofNat 8 (c % 10)] := by
  have shifted : ∀ j ∈ List.range n,
      BitVec.ofNat 8 (c / 10 ^ (n + 1 - 1 - j) % 10) = BitVec.ofNat 8 (c / 10 / 10 ^ (n - 1 - j) % 10) := by
    intro j hj
    have hj : j < n := List.mem_range.mp hj
    rw [Nat.div_div_eq_div_mul, ← Nat.pow_succ', show n + 1 - 1 - j = n - 1 - j + 1 by omega]
  rw [decimalDigits, decimalDigits, List.range_succ, List.map_append, List.map_congr_left shifted]
  simp

/-- `n` digits spell a number mod `10^n` (41_hotp.md R149). -/
theorem foldl_decimalDigits (n c : Nat) : (decimalDigits n c).foldl (fun a x => 10 * a + x.toNat) 0 = c % 10 ^ n := by
  induction n generalizing c with
  | zero => rw [Nat.pow_zero, Nat.mod_one]; rfl
  | succ n ih =>
    rw [decimalDigits_succ, List.foldl_append, ih, List.foldl_cons, List.foldl_nil, toNat_ofNat_mod_ten, Nat.pow_succ', Nat.mod_mul,
      Nat.add_comm]

/-- Settles O56: the value is reduced mod `10^n` already, so its `n` digits spell it whole. -/
theorem rfcDigitsSpellTheBinaryCode : Obligations.RfcDigitsSpellTheBinaryCode := by
  intro L n d digits cb h
  obtain ⟨-, ⟨htm, -⟩ | ⟨-, rfl, rfl⟩⟩ := hotpCode_some h
  · cases htm
  · rw [foldl_decimalDigits, ofNat_rfcValue_toNat, rfcValue, Nat.mod_mod]

/-- The value depends on the offset's nibble and the four bytes of the window (41_hotp.md R145 to R148). -/
theorem rfcValue_congr {L n : Nat} {d e : Bytes} (hoff : rfcOffset L d = rfcOffset L e)
    (hwin : ∀ j < 4, byteAt d (rfcOffset L d + j) = byteAt e (rfcOffset L d + j)) : rfcValue L n d = rfcValue L n e := by
  have window : rfcWindow L d = rfcWindow L e := by
    rw [rfcWindow, rfcWindow, ← hoff, hwin 1 (by decide), hwin 2 (by decide), hwin 3 (by decide)]
    exact congrArg (word4 · _ _ _) (hwin 0 (by decide))
  rw [rfcValue, rfcValue, rfcExtract, rfcExtract, window]

/-- Settles O57: in RFC mode the code is a function of the value. -/
theorem rfcCodeDependsOnItsWindowOnly : Obligations.RfcCodeDependsOnItsWindowOnly := by
  intro L n d e hnib hwin
  have hoff : rfcOffset L d = rfcOffset L e := (rfcOffset_eq_mod L d).trans (hnib.trans (rfcOffset_eq_mod L e).symm)
  have value : rfcValue L n d = rfcValue L n e := rfcValue_congr hoff fun j hj => by
    rw [rfcOffset_eq_mod]
    exact hwin j hj
  rw [hotpCode, hotpCode, value, if_neg Bool.false_ne_true, if_neg Bool.false_ne_true]

/-- Reducing by a power of ten keeps the digits below it (41_hotp.md R148). -/
theorem mod_pow_div_pow_mod_ten {k n : Nat} (c : Nat) (h : k < n) : c % 10 ^ n / 10 ^ k % 10 = c / 10 ^ k % 10 := by
  have split : 10 ^ n = 10 ^ k * 10 ^ (n - k) := by rw [← Nat.pow_add, Nat.add_sub_cancel' h.le]
  rw [split, Nat.mod_mul_right_div_self, Nat.mod_mod_of_dvd _ (dvd_pow_self 10 (by omega))]

theorem decimalDigits_mod_pow (n c : Nat) : decimalDigits n (c % 10 ^ n) = decimalDigits n c :=
  List.map_congr_left fun j hj => by
    have hj : j < n := List.mem_range.mp hj
    rw [mod_pow_div_pow_mod_ten c (by omega)]

/-- The last `n` of `m` digits are the `n` digits of the same number (41_hotp.md R149). -/
theorem drop_decimalDigits {n m : Nat} (c : Nat) (h : n ≤ m) : (decimalDigits m c).drop (m - n) = decimalDigits n c := by
  apply List.ext_getElem
  · rw [List.length_drop, decimalDigits_length, decimalDigits_length, Nat.sub_sub_self h]
  · intro j hj hj'
    rw [decimalDigits_length] at hj'
    simp only [decimalDigits, List.getElem_drop, List.getElem_map, List.getElem_range]
    rw [show m - 1 - (m - n + j) = n - 1 - j by omega]

/-- Settles O58: the digits of both modes, and two RFC codes of one tag as digits of one 31-bit extract. -/
theorem codeShape : Obligations.CodeShape := by
  refine ⟨fun L n tm d digits cb h => ⟨hotpCode_length h, hotpCode_digits h⟩, fun L n m d e f x y hnm he hf => ?_⟩
  obtain ⟨-, ⟨htm, -⟩ | ⟨-, rfl, -⟩⟩ := hotpCode_some he
  · cases htm
  obtain ⟨-, ⟨htm, -⟩ | ⟨-, rfl, -⟩⟩ := hotpCode_some hf
  · cases htm
  rw [rfcValue, rfcValue, decimalDigits_mod_pow, decimalDigits_mod_pow, drop_decimalDigits _ hnm]

end Sys2Proof.Machine
end
